-- ==== Sys2Proof/Word.lean ====
section
/-! DEFINITION. The types of the machine's values: register contents, addresses, bytes, instruction words
and register numbers, with the widths of spec/00_scope.md R4. -/

namespace Sys2Proof

/-- The contents of a general register: 64 bits (R4 `GPR_WIDTH`, R13). -/
abbrev Word := BitVec 64

/-- A memory address, and the program counter: 32 bits (R4 `EA_WIDTH`, `PC_WIDTH`; R17, R25). -/
abbrev Addr := BitVec 32

/-- One byte of memory (R4 `BYTE_BITS`, R22). -/
abbrev Byte := BitVec 8

/-- An instruction word: 32 bits (R41). -/
abbrev InstrWord := BitVec 32

/-- The 16-bit displacement field of form D, as it stands in the word (R42, R44). -/
abbrev Disp := BitVec 16

/-- The number of a general register, `r0` to `r31` (R4 `GPR_COUNT`, R13). -/
abbrev Reg := Fin 32

end Sys2Proof
end

