-- ==== Sys2Proof/Config.lean ====
section
/-! DEFINITION. What the spec leaves to the implementation or the launch and the model must name: what an
unlisted byte of memory reads as, and the launch values State.reset uses (spec/00_scope.md R4,
spec/10_state.md R24). The model has no free value: no rule leaves a result of an executing instruction open. -/

namespace Sys2Proof.Config

/-- How many bytes one instruction has, `INSTR_BYTES` (R4, R41). -/
def instrBytes : Nat := 4

/-- How many addresses there are (R25). -/
def addrCount : Nat := 2 ^ 32

/-- What an address that memory does not list reads as. DESIGN CHOICE (log entry 3): R24 leaves every memory
byte unspecified; unsafe where a statement rests on the memory of State.reset. -/
def unlistedByte : Byte := 0

/-- DESIGN CHOICE (log entry 1): R24 leaves `x[0]` to `x[31]` unspecified; unsafe. -/
def resetGpr : Word := 0

/-- DESIGN CHOICE (log entry 2): R24 gives no entry point; unsafe. A multiple of 4 (R83 premise 1). -/
def resetPc : Addr := 0

/-- DESIGN CHOICE (log entry 6): `end_pc` is an OPEN parameter (R4); the longest run from `resetPc` that R83
premise 1 admits; unsafe. -/
def resetEndPc : Addr := 0xFFFFFFFC

end Sys2Proof.Config
end

