-- ==== Sys2Proof/Machine/State.lean ====
section
/-! DEFINITION. The state of the machine as plain data (spec/10_state.md R13 to R24), the parameters of a run
that the launch fixes (spec/00_scope.md R4), the reasons a step stops, and the state at reset. -/

namespace Sys2Proof.Machine

/-- What a memory access is for, the `kind` of `MemAdmit(addr, kind)` (spec/20_memory.md R35). -/
inductive AccessKind where
  | fetch
  | data
  deriving DecidableEq, Repr

/-- A range of addresses, `first` and `last` included, that the launch admits for one kind of access. -/
structure Region where
  kind : AccessKind
  first : Addr
  last : Addr
  deriving DecidableEq, Repr

/-- Memory: the bytes that differ from `Config.unlistedByte`, addresses rising (`Memory.wf` in Ops.lean). -/
abbrev Memory := List Host.Cell

/-- The registers the source names without defining them (R19, R20): "carries them as opaque values". No width,
count or layout is in the spec, so the values are plain numbers (log entry 7). -/
structure NamedOnly where
  /-- The condition register. -/
  cr : Nat
  /-- XER bit `CA`. -/
  xerCa : Bool
  /-- XER bit `OV`. -/
  xerOv : Bool
  /-- XER bit `SO`. -/
  xerSo : Bool
  /-- Whatever else XER holds. -/
  xerRest : Nat
  /-- The floating-point registers `f[]`. -/
  fpr : List Nat
  /-- The vector registers `v[]`. -/
  vr : List Nat
  deriving DecidableEq, Repr

/-- Everything the spec gives the machine, and the two parameters of a run that are no state of the chip
(`memMap`, `endPc`: R4, R23; log entry 4). -/
structure State where
  /-- `x[0]` to `x[31]`, 64 bits each, one flat file (R13, R16). -/
  gpr : Vector Word 32
  /-- The program counter: the address of the instruction the step executes (R17). -/
  pc : Addr
  /-- The one address space of bytes (R22, R25). -/
  mem : Memory
  /-- The parameter `MemAdmit` as the regions it admits (R35); no step writes it. -/
  memMap : List Region
  /-- The parameter `end_pc` (R85); no step writes it. -/
  endPc : Addr
  /-- The registers that are named only (R19, R20); no instruction reads or writes them. -/
  named : NamedOnly
  deriving DecidableEq, Repr

/-- The machine stops without a refusal. The spec has no exception (R67), so no instruction raises one of these. -/
inductive Fault where
  /-- The run is complete: `pc = end_pc` at the start of a step, so no fetch is made and no further step exists
  (spec/70_reset_and_hazards.md R85). Raised by `step` alone, before the fetch. Not an event of the chip. Safe:
  the model goes no further, where the chip may (log entry 8). -/
  | runComplete
  deriving DecidableEq, Repr

/-- `refuse(reason)`: the step has no meaning in the spec, nothing is written (R10, R70). Each is safe: the model
stops where the chip may go on. -/
inductive Refusal where
  /-- An instruction of the opcode table that `exec` gives no meaning yet; raised by a refused arm of `exec`
  only, of which there is none. Safe. -/
  | notModelled (mnemonic : String)
  /-- `pc mod 4 ≠ 0` at the start of a step (spec/20_memory.md R32); raised by the fetch. Safe. -/
  | pcMisaligned
  /-- `MemAdmit(pc + k, fetch)` is false for some `k` in 0 to 3 (R35, R69); raised by the fetch. Safe. -/
  | fetchNotAdmitted
  /-- The fetched word matches no row of the opcode map (R49, R51); raised by `step` after decoding. Safe. -/
  | unknownEncoding
  /-- `lbzu` or `lbzux` with `RA = 0` or `RA = RT` (R50); raised by the meanings of these two. Safe. -/
  | invalidForm
  /-- `MemAdmit(EA, data)` is false (R35, R69); raised by the load of every instruction. Safe. -/
  | dataNotAdmitted
  /-- `pc + 4 ≥ 2^32` (spec/10_state.md R18); raised by every instruction, its last check. Safe. -/
  | pcOverflow
  deriving DecidableEq, Repr

/-- The registers of `NamedOnly` at reset. DESIGN CHOICE (log entry 7): R24 leaves them unspecified; unsafe. -/
def NamedOnly.reset : NamedOnly :=
  ⟨0, false, false, false, 0, [], []⟩

/-- The machine right after reset. The spec gives no reset value and no reset event (R24, R81): a run starts from
a launch state that is its argument, any `State` at all. This is ONE such state, every value in it a DESIGN CHOICE
(log entries 1 to 3 and 5 to 7); unsafe, so no statement about the machine rests on these values. -/
def State.reset : State where
  gpr := Vector.replicate 32 Config.resetGpr
  pc := Config.resetPc
  mem := []
  memMap := [⟨.fetch, 0, 0xFFFFFFFF⟩, ⟨.data, 0, 0xFFFFFFFF⟩]
  endPc := Config.resetEndPc
  named := NamedOnly.reset

end Sys2Proof.Machine
end

