-- ==== Sys2Proof/Machine/Flags.lean ====
section
/-! DEFINITION. The status effect of the four instructions, which is none: they read no flag and write no flag
(spec/10_state.md R19). No other flag computation is in the spec. -/

namespace Sys2Proof.Machine

/-- The condition register, XER and the other named-only registers after a load: "No condition-register or
status-register effects" (R19, R20; spec/40_load_byte_zero.md R65). -/
def namedAfterLoad (n : NamedOnly) : NamedOnly :=
  n

end Sys2Proof.Machine
end

