-- ==== Sys2Proof/Syntax.lean ====
section
/-! DEFINITION. The instructions: one constructor per row of spec/opcode_table.json (spec/00_scope.md R2),
with the operands in the order of the word's fields (spec/30_encoding.md R42, R43), and the names the
assembler text uses. -/

namespace Sys2Proof

/-- The instruction set in scope is exactly these four (R2). `rt` is the destination (the syntax calls it `RD`,
spec/90_conflicts.md C3), `ra` the base field, `rb` the index, `d` the displacement field. -/
inductive Instr where
  /-- Load Byte and Zero (R61); `ra` is an `RA0` operand. -/
  | lbz (rt ra : Reg) (d : Disp)
  /-- Load Byte and Zero with Update (R62); `ra` is a plain `RA` operand. -/
  | lbzu (rt ra : Reg) (d : Disp)
  /-- Load Byte and Zero Indexed (R63); `ra` is an `RA0` operand. -/
  | lbzx (rt ra rb : Reg)
  /-- Load Byte and Zero with Update Indexed (R64); `ra` is a plain `RA` operand. -/
  | lbzux (rt ra rb : Reg)
  deriving DecidableEq, Repr

/-- The four mnemonics (R56: no alias, no pseudo-instruction, no extended mnemonic). -/
inductive Mnemonic where
  | lbz
  | lbzu
  | lbzx
  | lbzux
  deriving DecidableEq, Repr

/-- The destination register of an instruction (the `RT` field, R42, R43). -/
def Instr.rt : Instr → Reg
  | .lbz rt _ _ => rt
  | .lbzu rt _ _ => rt
  | .lbzx rt _ _ => rt
  | .lbzux rt _ _ => rt

/-- The mnemonic of an instruction. -/
def Instr.mnemonic : Instr → Mnemonic
  | .lbz _ _ _ => .lbz
  | .lbzu _ _ _ => .lbzu
  | .lbzx _ _ _ => .lbzx
  | .lbzux _ _ _ => .lbzux

/-- The two instruction formats (R42, R43). -/
inductive Form where
  | d
  | x
  deriving DecidableEq, Repr

/-- The format each instruction uses (R46). -/
def Mnemonic.form : Mnemonic → Form
  | .lbz => .d
  | .lbzu => .d
  | .lbzx => .x
  | .lbzux => .x

end Sys2Proof
end

