-- ==== Sys2Proof/WellFormed.lean ====
section
/-! DEFINITION. Which instructions are well formed: all but the invalid forms of spec/30_encoding.md R50.
Field ranges are in the types, so the invalid forms are the only check. -/

namespace Sys2Proof

/-- R50: `lbzu` and `lbzux` with `RA = 0` or `RA = RT`; the other two have no invalid form. -/
def Instr.invalidForm : Instr → Bool
  | .lbz _ _ _ => false
  | .lbzu rt ra _ => ra == 0 || ra == rt
  | .lbzx _ _ _ => false
  | .lbzux rt ra _ => ra == 0 || ra == rt

/-- A well-formed instruction is one that is no invalid form (R84). -/
def Instr.wellFormed (i : Instr) : Bool :=
  !i.invalidForm

end Sys2Proof
end

