-- ==== Sys2Proof/Decode.lean ====
section
/-! DEFINITION. Decoding and encoding of the 32-bit instruction word (spec/30_encoding.md R41 to R53), the
opcode map as a table of masks and patterns, the big-endian assembly of a word from its bytes
(spec/20_memory.md R30), and the reading of a word numbered as spec/opcode_table.json numbers it. -/

namespace Sys2Proof

/-- `instr{a:b}`: the bits `a` to `b` of a word in IBM numbering, bit 0 the most significant
(spec/00_scope.md R5). -/
def ibmField (w : InstrWord) (a b : Nat) : BitVec (b - a + 1) :=
  w.extractLsb' (31 - b) (b - a + 1)

/-- A 5-bit field as a register number (R45). -/
def regOfField (f : BitVec 5) : Reg :=
  ⟨f.toNat, f.isLt⟩

/-- A register number as the 5-bit field that selects it (R45). -/
def fieldOfReg (r : Reg) : BitVec 5 :=
  BitVec.ofNat 5 r.val

/-- `OPCD`, the primary opcode: bits 0 to 5 (R42, R43). -/
def opcdField (w : InstrWord) : BitVec 6 :=
  ibmField w 0 5

/-- `RT`: bits 6 to 10 (R42, R43). -/
def rtField (w : InstrWord) : Reg :=
  regOfField (ibmField w 6 10)

/-- `RA`: bits 11 to 15 (R42, R43). -/
def raField (w : InstrWord) : Reg :=
  regOfField (ibmField w 11 15)

/-- `D`: bits 16 to 31 of form D (R42). -/
def dField (w : InstrWord) : Disp :=
  ibmField w 16 31

/-- `RB`: bits 16 to 20 of form X (R43). -/
def rbField (w : InstrWord) : Reg :=
  regOfField (ibmField w 16 20)

/-- `XO`, the extended opcode: bits 21 to 30 of form X (R43). -/
def xoField (w : InstrWord) : BitVec 10 :=
  ibmField w 21 30

/-- `Rc`: bit 31 of form X, which must be 0 (R43, R49). -/
def rcField (w : InstrWord) : BitVec 1 :=
  ibmField w 31 31

/-- Why a word is refused by the decoder. -/
inductive DecodeRefusal where
  /-- The word matches no row of the opcode map (R51), an X-form word with bit 31 set among them (R49). -/
  | unknownEncoding
  deriving DecidableEq, Repr

/-- The decoding procedure of R47. An invalid form of R50 decodes: the check for it follows decoding. -/
def decode (w : InstrWord) : Except DecodeRefusal Instr :=
  if opcdField w = 34 then .ok (.lbz (rtField w) (raField w) (dField w))
  else if opcdField w = 35 then .ok (.lbzu (rtField w) (raField w) (dField w))
  else if opcdField w = 31 ∧ xoField w = 87 ∧ rcField w = 0 then
    .ok (.lbzx (rtField w) (raField w) (rbField w))
  else if opcdField w = 31 ∧ xoField w = 119 ∧ rcField w = 0 then
    .ok (.lbzux (rtField w) (raField w) (rbField w))
  else .error .unknownEncoding

/-- The word assembled big-endian from four bytes at ascending addresses (spec/20_memory.md R30). -/
def wordOfBytes (b0 b1 b2 b3 : Byte) : InstrWord :=
  b0 ++ b1 ++ b2 ++ b3

/-- The decoder on the four bytes of an instruction; it always takes 4 bytes (R41). -/
def decodeBytes (b0 b1 b2 b3 : Byte) : Except DecodeRefusal Instr :=
  decode (wordOfBytes b0 b1 b2 b3)

/-- The byte at offset `k` (0 to 3) of a word laid out big-endian: offset 0 holds bits 0 to 7 (R30). -/
def byteOfWord (w : InstrWord) (k : Nat) : Byte :=
  w.extractLsb' (8 * (3 - k)) 8

/-- A form D word: `OPCD`, `RT`, `RA`, `D` from the most significant bit down (R42). -/
def encodeD (opcd : BitVec 6) (rt ra : Reg) (d : Disp) : InstrWord :=
  opcd ++ fieldOfReg rt ++ fieldOfReg ra ++ d

/-- A form X word: `OPCD`, `RT`, `RA`, `RB`, `XO`, `Rc` from the most significant bit down (R43). -/
def encodeX (opcd : BitVec 6) (rt ra rb : Reg) (xo : BitVec 10) (rc : BitVec 1) : InstrWord :=
  opcd ++ fieldOfReg rt ++ fieldOfReg ra ++ fieldOfReg rb ++ xo ++ rc

/-- The word of an instruction, with the opcode numbers of R46. -/
def encode : Instr → InstrWord
  | .lbz rt ra d => encodeD 34 rt ra d
  | .lbzu rt ra d => encodeD 35 rt ra d
  | .lbzx rt ra rb => encodeX 31 rt ra rb 87 0
  | .lbzux rt ra rb => encodeX 31 rt ra rb 119 0

/-- One row of the opcode map: a word is an encoding of the row's instruction exactly when its bits under
`mask` are `pattern` (R46). -/
structure OpcodeRow where
  mnemonic : Mnemonic
  mask : InstrWord
  pattern : InstrWord
  deriving DecidableEq, Repr

/-- The opcode map of R46. -/
def opcodeMap : List OpcodeRow :=
  [⟨.lbz, 0xFC000000, 0x88000000⟩, ⟨.lbzu, 0xFC000000, 0x8C000000⟩,
   ⟨.lbzx, 0xFC0007FF, 0x7C0000AE⟩, ⟨.lbzux, 0xFC0007FF, 0x7C0000EE⟩]

/-- `(w & mask) = match` (R46). -/
def OpcodeRow.matchesWord (row : OpcodeRow) (w : InstrWord) : Bool :=
  w &&& row.mask == row.pattern

/-- The word whose bits are `w`, numbered as spec/opcode_table.json numbers them (bit 0 the least significant
of the one 32-bit word, so the table's numbering is the LSB-0 numbering of R42 and R43), every bit from
`nbits` up being 0. -/
def tableWord (nbits w : Nat) : InstrWord :=
  BitVec.ofNat 32 (w % 2 ^ nbits)

/-- What the decoder reads from the bytes of that word as the hardware stores them; `none` where it refuses. -/
def decodeTableWord (nbits w : Nat) : Option Instr :=
  let v := tableWord nbits w
  match decodeBytes (byteOfWord v 0) (byteOfWord v 1) (byteOfWord v 2) (byteOfWord v 3) with
  | .ok i => some i
  | .error _ => none

end Sys2Proof
end

