-- ==== Sys2Proof/Machine/Ops.lean ====
section
/-! DEFINITION. The named operations over registers, memory and the program counter: the only readers and
writers of State's fields. There is no operation that takes or leaves an exception: the spec describes no trap
entry and no return (spec/60_exceptions.md R73, R74); a step that may trap on the chip is refused. -/

namespace Sys2Proof.Machine

/-! ### General registers -/

/-- `x[r]` (spec/00_scope.md R7). No register is hardwired (spec/10_state.md R14). -/
def readGpr (s : State) (r : Reg) : Word :=
  s.gpr[r.val]

/-- `x[r] <- v` (R7). -/
def writeGpr (s : State) (r : Reg) (v : Word) : State :=
  { s with gpr := s.gpr.set r.val v }

/-! ### The program counter -/

/-- `pc <- t` (R7). -/
def setPc (s : State) (t : Addr) : State :=
  { s with pc := t }

/-- `pc + 4 ≥ 2^32` (spec/10_state.md R18). -/
def pcOverflows (s : State) : Bool :=
  decide (Config.addrCount ≤ s.pc.toNat + Config.instrBytes)

/-- `pc <- pc + 4` (R18). -/
def advancePc (s : State) : State :=
  setPc s (s.pc + BitVec.ofNat 32 Config.instrBytes)

/-- `pc mod 4 = 0` (spec/20_memory.md R32). -/
def pcAligned (s : State) : Bool :=
  s.pc.toNat % Config.instrBytes == 0

/-! ### Memory as data: one canonical form -/

/-- The list is canonical from address `lo` up: addresses rising and below 2^32, no entry equal to what an
unlisted address reads as. -/
def wfFrom : Nat → Memory → Bool
  | _, [] => true
  | lo, (a, b) :: rest =>
    decide (lo ≤ a) && decide (a < Config.addrCount) && b != Config.unlistedByte && wfFrom (a + 1) rest

/-- Memory is in its canonical form, so that equal memories are equal data. -/
def Memory.wf (m : Memory) : Bool :=
  wfFrom 0 m

/-- The byte at address `k`. -/
def readCell : Memory → Nat → Byte
  | [], _ => Config.unlistedByte
  | (a, b) :: rest, k => if a = k then b else readCell rest k

/-- `(k, v)` before `m`, unless `v` is what an unlisted address reads as. -/
def consCell (k : Nat) (v : Byte) (m : Memory) : Memory :=
  if v = Config.unlistedByte then m else (k, v) :: m

/-- Memory with the byte at address `k` made `v`, in canonical form. -/
def writeCell : Memory → Nat → Byte → Memory
  | [], k, v => consCell k v []
  | (a, b) :: rest, k, v =>
    if k < a then consCell k v ((a, b) :: rest)
    else if k = a then consCell k v rest
    else (a, b) :: writeCell rest k v

/-- `MemRead(addr, 1)`: the byte stored at `addr`; it changes nothing (spec/20_memory.md R27, R34). -/
def readByte (s : State) (a : Addr) : Byte :=
  readCell s.mem a.toNat

/-- A byte placed in memory by the launch (R81). `MemWrite` of R7 is used by no instruction (R3). -/
def placeByte (m : Memory) (a : Addr) (v : Byte) : Memory :=
  writeCell m a.toNat v

/-- An instruction word placed big-endian at `a` by the launch (R30, spec/70_reset_and_hazards.md R83). -/
def placeWord (m : Memory) (a : Addr) (w : InstrWord) : Memory :=
  placeByte (placeByte (placeByte (placeByte m a (byteOfWord w 0)) (a + 1) (byteOfWord w 1))
    (a + 2) (byteOfWord w 2)) (a + 3) (byteOfWord w 3)

/-! ### The parameter MemAdmit -/

/-- The region admits the access. -/
def regionAdmits (k : AccessKind) (a : Addr) (r : Region) : Bool :=
  decide (r.kind = k) && decide (r.first ≤ a) && decide (a ≤ r.last)

/-- `MemAdmit(a, k)` (R35). -/
def admits (s : State) (k : AccessKind) (a : Addr) : Bool :=
  s.memMap.any (regionAdmits k a)

/-- `MemAdmit(pc + k, fetch)` for every `k` in 0 to 3 (R69). -/
def fetchAdmitted (s : State) : Bool :=
  admits s .fetch s.pc && admits s .fetch (s.pc + 1) && admits s .fetch (s.pc + 2)
    && admits s .fetch (s.pc + 3)

/-! ### Instruction fetch -/

/-- The 32-bit word whose four bytes stand from `a` up, big-endian (R30). -/
def wordAt (s : State) (a : Addr) : InstrWord :=
  wordOfBytes (readByte s a) (readByte s (a + 1)) (readByte s (a + 2)) (readByte s (a + 3))

/-- Lines 1 to 3 of the step (spec/70_reset_and_hazards.md R86): alignment, admission, the word. -/
def fetch (s : State) : Except Refusal InstrWord :=
  if pcAligned s = false then .error .pcMisaligned
  else if fetchAdmitted s = false then .error .fetchNotAdmitted
  else .ok (wordAt s s.pc)

/-- The refusal a step reports for a word the decoder refuses (R51). -/
def refusalOfDecode : DecodeRefusal → Refusal
  | .unknownEncoding => .unknownEncoding

/-- The run is complete: `pc = end_pc` at the start of a step (R85). -/
def runComplete (s : State) : Bool :=
  s.pc == s.endPc

/-! ### Placing the next instruction -/

/-- `s` launched with `w` as the instruction its next step fetches: the word stands at `pc`, and where the fetch
needs it `pc` is rounded down to a multiple of 4, its four bytes are admitted for fetch, and `end_pc` is moved off
`pc`. All else is as in `s`. -/
def launchWord (s : State) (w : InstrWord) : State :=
  let at4 : Addr := s.pc &&& 0xFFFFFFFC
  { s with
    pc := at4
    mem := placeWord s.mem at4 w
    memMap := if fetchAdmitted (setPc s at4) then s.memMap else ⟨.fetch, at4, at4 + 3⟩ :: s.memMap
    endPc := if s.endPc = at4 then at4 + 4 else s.endPc }

end Sys2Proof.Machine
end

