-- ==== Sys2Proof/Machine/Operands.lean ====
section
/-! DEFINITION. Every operand form: the base operand `RA0` and `RA`, the displacement, the index, the effective
address (spec/40_load_byte_zero.md R57, R58), the values a load writes (R59, R60), the check for invalid forms
(spec/30_encoding.md R50), and the list of registers each instruction reads and writes (spec/10_state.md R15). -/

namespace Sys2Proof.Machine

/-- `sext_64(d)` (R7, R44): two's complement, not scaled. -/
def sext64 (d : Disp) : Word :=
  d.signExtend 64

/-- `low32(v)` (R7). -/
def low32 (v : Word) : Addr :=
  v.setWidth 32

/-- `zext_64(b)` of a byte (R7, R59). -/
def zextByte (b : Byte) : Word :=
  b.setWidth 64

/-- `zext_64(EA)` (R7, R60). -/
def zextAddr (a : Addr) : Word :=
  a.setWidth 64

/-- `base0(ra)`, an `RA0` operand: field 0 is the constant 64-bit zero, not `r0` (R57). -/
def base0 (s : State) (ra : Reg) : Word :=
  if ra = 0 then 0 else readGpr s ra

/-- A plain `RA` operand (R57). -/
def baseRa (s : State) (ra : Reg) : Word :=
  readGpr s ra

/-- `RB`, the index: field 0 is `r0` itself (R14, R45). -/
def index (s : State) (rb : Reg) : Word :=
  readGpr s rb

/-- `EA = low32(base +64 offset)` (R58). -/
def effectiveAddress (base offset : Word) : Addr :=
  low32 (base + offset)

/-- The effective address of `lbz` (R61). -/
def eaLbz (s : State) (ra : Reg) (d : Disp) : Addr :=
  effectiveAddress (base0 s ra) (sext64 d)

/-- The effective address of `lbzu` (R62). -/
def eaLbzu (s : State) (ra : Reg) (d : Disp) : Addr :=
  effectiveAddress (baseRa s ra) (sext64 d)

/-- The effective address of `lbzx` (R63). -/
def eaLbzx (s : State) (ra rb : Reg) : Addr :=
  effectiveAddress (base0 s ra) (index s rb)

/-- The effective address of `lbzux` (R64). -/
def eaLbzux (s : State) (ra rb : Reg) : Addr :=
  effectiveAddress (baseRa s ra) (index s rb)

/-- The effective address of an instruction. -/
def instrEa (s : State) : Instr → Addr
  | .lbz _ ra d => eaLbz s ra d
  | .lbzu _ ra d => eaLbzu s ra d
  | .lbzx _ ra rb => eaLbzx s ra rb
  | .lbzux _ ra rb => eaLbzux s ra rb

/-- The operand fields of an update form that make it an invalid form: `RA = 0` or `RA = RT` (R50). -/
def invalidUpdate (rt ra : Reg) : Bool :=
  ra == 0 || ra == rt

/-- The base register an `RA0` operand reads: none for field 0 (R15). -/
def base0Reads (ra : Reg) : List Reg :=
  if ra = 0 then [] else [ra]

/-- The general registers an instruction reads (R15). -/
def gprReads : Instr → List Reg
  | .lbz _ ra _ => base0Reads ra
  | .lbzu _ ra _ => [ra]
  | .lbzx _ ra rb => base0Reads ra ++ [rb]
  | .lbzux _ ra rb => [ra, rb]

/-- The general registers an instruction writes (R15). -/
def gprWrites : Instr → List Reg
  | .lbz rt _ _ => [rt]
  | .lbzu rt ra _ => [rt, ra]
  | .lbzx rt _ _ => [rt]
  | .lbzux rt ra _ => [rt, ra]

end Sys2Proof.Machine
end

