-- ==== Sys2Proof/Machine/LoadByte.lean ====
section
/-! DEFINITION. The load-byte-and-zero family (spec/40_load_byte_zero.md R57 to R66): one meaning per
instruction over one shared load. The order of checks is that of spec/60_exceptions.md R72, the order of effects
that of R66: operand reads, memory read, then the writes, all or none. -/

namespace Sys2Proof.Machine

/-- The writes of a load that is not refused: `RT` (R59), then `RA` for an update form (R60), then `pc` (R18).
The byte is read from `s`, before any write (R66). -/
def loadWrites (rt : Reg) (ea : Addr) (update : Option Reg) (s : State) : State :=
  let loaded := writeGpr s rt (zextByte (readByte s ea))
  let updated := match update with
    | none => loaded
    | some ra => writeGpr loaded ra (zextAddr ea)
  advancePc { updated with named := namedAfterLoad updated.named }

/-- Lines 7 to 9 of the step (spec/70_reset_and_hazards.md R86): admission of the data address, the check on
`pc`, the load. -/
def loadByteZero (rt : Reg) (ea : Addr) (update : Option Reg) (s : State) :
    Host.Outcome State Fault Refusal :=
  if admits s .data ea = false then .refused .dataNotAdmitted
  else if pcOverflows s = true then .refused .pcOverflow
  else .next (loadWrites rt ea update s)

/-- `lbz` (R61). -/
def execLbz (rt ra : Reg) (d : Disp) (s : State) : Host.Outcome State Fault Refusal :=
  loadByteZero rt (eaLbz s ra d) none s

/-- `lbzu` (R62); `RA = 0` and `RA = RT` are invalid forms (R50). -/
def execLbzu (rt ra : Reg) (d : Disp) (s : State) : Host.Outcome State Fault Refusal :=
  if invalidUpdate rt ra = true then .refused .invalidForm
  else loadByteZero rt (eaLbzu s ra d) (some ra) s

/-- `lbzx` (R63). -/
def execLbzx (rt ra rb : Reg) (s : State) : Host.Outcome State Fault Refusal :=
  loadByteZero rt (eaLbzx s ra rb) none s

/-- `lbzux` (R64); `RA = 0` and `RA = RT` are invalid forms (R50). -/
def execLbzux (rt ra rb : Reg) (s : State) : Host.Outcome State Fault Refusal :=
  if invalidUpdate rt ra = true then .refused .invalidForm
  else loadByteZero rt (eaLbzux s ra rb) (some ra) s

end Sys2Proof.Machine
end

