-- ==== Sys2Proof/Machine/Step.lean ====
section
/-! DEFINITION. One step of the machine (spec/70_reset_and_hazards.md R85, R86), and the launch of a state with a
given instruction as its next. -/

namespace Sys2Proof.Machine

/-- One step. At `pc = end_pc` the run is complete and no step exists (R85). Else fetch, decode, execute, the first
check that fails naming the refusal (R72, R86). -/
def step (s : State) : Host.Outcome State Fault Refusal :=
  if runComplete s = true then .fault .runComplete
  else match fetch s with
    | .error r => .refused r
    | .ok w => match decode w with
      | .error e => .refused (refusalOfDecode e)
      | .ok i => exec i s

/-- `s` with the instruction whose bits are `w` where `step` fetches its next instruction (log entry 9). -/
def State.withFetchWord (s : State) (nbits w : Nat) : State :=
  launchWord s (tableWord nbits w)

end Sys2Proof.Machine
end

