-- ==== Sys2Proof/Machine/Assembly.lean ====
section
/-! DEFINITION. The assembler text of the four instructions as a list of tokens (spec/30_encoding.md R54, R55):
operand order, register spelling, the range of the displacement, the invalid forms an assembler must reject. -/

namespace Sys2Proof.Machine

/-- The tokens of one line of assembler text. A number is one token whatever base it is written in (R55). -/
inductive AsmToken where
  | mnemonic (m : Mnemonic)
  /-- `rN`. -/
  | reg (n : Nat)
  | num (v : Int)
  | comma
  | lpar
  | rpar
  deriving DecidableEq, Repr

/-- A plain register operand: `rN`. -/
def asmReg (r : Reg) : AsmToken :=
  .reg r.val

/-- An `RA0` operand: the zero base is written as a bare `0` (R55). -/
def asmBase0 (r : Reg) : AsmToken :=
  if r = 0 then .num 0 else .reg r.val

/-- The text of an instruction (R54): `RT, d(RA)` in form D, `RT, RA, RB` in form X. -/
def asmText : Instr → List AsmToken
  | .lbz rt ra d => [.mnemonic .lbz, asmReg rt, .comma, .num d.toInt, .lpar, asmBase0 ra, .rpar]
  | .lbzu rt ra d => [.mnemonic .lbzu, asmReg rt, .comma, .num d.toInt, .lpar, asmReg ra, .rpar]
  | .lbzx rt ra rb => [.mnemonic .lbzx, asmReg rt, .comma, asmBase0 ra, .comma, asmReg rb]
  | .lbzux rt ra rb => [.mnemonic .lbzux, asmReg rt, .comma, asmReg ra, .comma, asmReg rb]

/-- A register operand read back: `0 ≤ N ≤ 31` (R55). -/
def parseReg : AsmToken → Option Reg
  | .reg n => if h : n < 32 then some ⟨n, h⟩ else none
  | _ => none

/-- An `RA0` operand read back: a bare `0`, or a register other than `r0` (log entry 10). -/
def parseBase0 : AsmToken → Option Reg
  | .num v => if v = 0 then some 0 else none
  | .reg n => if h : 0 < n ∧ n < 32 then some ⟨n, h.2⟩ else none
  | _ => none

/-- A displacement read back: −32768 to 32767 (R44, R55). -/
def parseDisp (v : Int) : Option Disp :=
  if -32768 ≤ v ∧ v ≤ 32767 then some (BitVec.ofInt 16 v) else none

/-- The instruction, unless it is an invalid form, which an assembler must reject (R55). -/
def asmCheck (i : Instr) : Option Instr :=
  if i.wellFormed then some i else none

/-- The instruction a line of text stands for; `none` where the assembler rejects the line (R54, R55). -/
def parseAsm : List AsmToken → Option Instr
  | [.mnemonic .lbz, t, .comma, .num v, .lpar, b, .rpar] =>
    match parseReg t, parseBase0 b, parseDisp v with
    | some rt, some ra, some d => asmCheck (.lbz rt ra d)
    | _, _, _ => none
  | [.mnemonic .lbzu, t, .comma, .num v, .lpar, b, .rpar] =>
    match parseReg t, parseReg b, parseDisp v with
    | some rt, some ra, some d => asmCheck (.lbzu rt ra d)
    | _, _, _ => none
  | [.mnemonic .lbzx, t, .comma, b, .comma, x] =>
    match parseReg t, parseBase0 b, parseReg x with
    | some rt, some ra, some rb => asmCheck (.lbzx rt ra rb)
    | _, _, _ => none
  | [.mnemonic .lbzux, t, .comma, b, .comma, x] =>
    match parseReg t, parseReg b, parseReg x with
    | some rt, some ra, some rb => asmCheck (.lbzux rt ra rb)
    | _, _, _ => none
  | _ => none

end Sys2Proof.Machine
end

