-- ==== Sys2Proof/Machine/Reference.lean ====
section
/-! DEFINITION. The step a second time, line by line from spec/70_reset_and_hazards.md R86 in natural-number
arithmetic: fields by division (the LSB-0 columns of spec/30_encoding.md R42 and R43), addresses and sums modulo
2^32 and 2^64 (spec/00_scope.md R6, R7). It shares no decoding, operand or execution function with `step`; that the
two agree is an obligation. -/

namespace Sys2Proof.Machine

/-- `v[hi:lo]` (R6). -/
def natSlice (v hi lo : Nat) : Nat :=
  v / 2 ^ lo % 2 ^ (hi - lo + 1)

/-- The byte at address `a`, as a number (R27). -/
def natByte (s : State) (a : Nat) : Nat :=
  (readCell s.mem a).toNat

/-- `x[r]` as a number (R7). -/
def natGpr (s : State) (r : Nat) : Nat :=
  (s.gpr[r]?.getD 0).toNat

/-- Line 3 of R86: the word at `pc`, the byte at `pc` its most significant. -/
def natWord (s : State) : Nat :=
  natByte s s.pc.toNat * 2 ^ 24 + natByte s (s.pc.toNat + 1) * 2 ^ 16
    + natByte s (s.pc.toNat + 2) * 2 ^ 8 + natByte s (s.pc.toNat + 3)

/-- Line 4 of R86: the row of the opcode map the word matches (R47). -/
def natDecode (w : Nat) : Option Mnemonic :=
  if natSlice w 31 26 = 34 then some .lbz
  else if natSlice w 31 26 = 35 then some .lbzu
  else if natSlice w 31 26 = 31 ∧ natSlice w 10 0 = 0x0AE then some .lbzx
  else if natSlice w 31 26 = 31 ∧ natSlice w 10 0 = 0x0EE then some .lbzux
  else none

/-- Whether the instruction also writes `RA` (R60). -/
def isUpdate : Mnemonic → Bool
  | .lbz => false
  | .lbzu => true
  | .lbzx => false
  | .lbzux => true

/-- The base as a number (R57). -/
def natBase (s : State) (m : Mnemonic) (w : Nat) : Nat :=
  if isUpdate m = false ∧ natSlice w 20 16 = 0 then 0 else natGpr s (natSlice w 20 16)

/-- The offset as a number: `sext_64(d)` as R7 defines it, or the index register. -/
def natOffset (s : State) (m : Mnemonic) (w : Nat) : Nat :=
  match m.form with
  | .d => if natSlice w 15 0 < 2 ^ 15 then natSlice w 15 0 else natSlice w 15 0 + 2 ^ 64 - 2 ^ 16
  | .x => natGpr s (natSlice w 15 11)

/-- Line 6 of R86: the effective address, the low 32 bits of the 64-bit wrapping sum (R58). -/
def natEa (s : State) (m : Mnemonic) (w : Nat) : Nat :=
  (natBase s m w + natOffset s m w) % 2 ^ 64 % 2 ^ 32

/-- Line 9 of R86: the state after the load. -/
def natNext (s : State) (m : Mnemonic) (w : Nat) : State :=
  let ea := natEa s m w
  let loaded := s.gpr.setIfInBounds (natSlice w 25 21) (BitVec.ofNat 64 (natByte s ea))
  let updated := if isUpdate m then loaded.setIfInBounds (natSlice w 20 16) (BitVec.ofNat 64 ea) else loaded
  { s with gpr := updated, pc := BitVec.ofNat 32 (s.pc.toNat + 4) }

/-- Lines 4 to 9 of R86 for the fetched word `w`. -/
def refExecute (s : State) (w : Nat) : Host.Outcome State Fault Refusal :=
  match natDecode w with
  | none => .refused .unknownEncoding
  | some m =>
    if isUpdate m = true ∧ (natSlice w 20 16 = 0 ∨ natSlice w 20 16 = natSlice w 25 21) then
      .refused .invalidForm
    else if admits s .data (BitVec.ofNat 32 (natEa s m w)) = false then .refused .dataNotAdmitted
    else if 2 ^ 32 ≤ s.pc.toNat + 4 then .refused .pcOverflow
    else .next (natNext s m w)

/-- One step as R85 and R86 write it. -/
def refStep (s : State) : Host.Outcome State Fault Refusal :=
  if s.pc = s.endPc then .fault .runComplete
  else if s.pc.toNat % 4 ≠ 0 then .refused .pcMisaligned
  else if ∃ k : Fin 4, admits s .fetch (BitVec.ofNat 32 (s.pc.toNat + k.val)) = false then
    .refused .fetchNotAdmitted
  else refExecute s (natWord s)

end Sys2Proof.Machine
end

