-- ==== Sys2Proof/Safety.lean ====
section
/-! DEFINITION. The terms the statements use: what an instruction leaves unchanged, the invariant every step keeps,
the launch premises of spec/70_reset_and_hazards.md R83, and how many steps a run has left (R85). -/

namespace Sys2Proof.Machine

/-- From `s` to `t` no general register outside `dests` changed, no byte of memory, none of the named-only registers
and neither parameter of the run (spec/40_load_byte_zero.md R65). The program counter may differ. -/
def OnlyWrites (dests : List Reg) (s t : State) : Prop :=
  (∀ r, r ∉ dests → readGpr t r = readGpr s r) ∧ (∀ a, readByte t a = readByte s a) ∧
    t.named = s.named ∧ t.memMap = s.memMap ∧ t.endPc = s.endPc

/-- Premise 1 of R83: `pc` and `end_pc` are multiples of 4 and `pc ≤ end_pc`. -/
def PcPremise (s : State) : Prop :=
  s.pc.toNat % 4 = 0 ∧ s.endPc.toNat % 4 = 0 ∧ s.pc.toNat ≤ s.endPc.toNat

/-- The invariant of the machine: premise 1 of R83, and memory in its canonical form. -/
def MachineInv (s : State) : Prop :=
  PcPremise s ∧ s.mem.wf = true

/-- Premise 2 of R83: the addresses from `pc` to `end_pc − 1` are admitted for fetch. -/
def FetchPremise (s : State) : Prop :=
  ∀ a : Addr, s.pc.toNat ≤ a.toNat → a.toNat < s.endPc.toNat → admits s .fetch a = true

/-- Premise 3 of R83: every word of the program from `pc` to `end_pc` is a well-formed encoding (R84). -/
def ProgramPremise (s : State) : Prop :=
  ∀ a : Addr, a.toNat % 4 = 0 → s.pc.toNat ≤ a.toNat → a.toNat < s.endPc.toNat →
    ∃ i, decode (wordAt s a) = .ok i ∧ i.wellFormed = true

/-- Premises 1 to 3 of R83. -/
def LaunchPremises (s : State) : Prop :=
  PcPremise s ∧ FetchPremise s ∧ ProgramPremise s

/-- `n` steps from `s`, in the host's terms. -/
def runSteps (n : Nat) (s : State) : Host.Outcome State Fault Refusal :=
  Host.Core.run Sys2Proof.core n s

/-- Premise 4 of R83: every effective address the run from `s` computes is admitted for data. -/
def DataPremise (s : State) : Prop :=
  ∀ n t i, runSteps n s = .next t → t.pc ≠ t.endPc → decode (wordAt t t.pc) = .ok i →
    admits t .data (instrEa t i) = true

/-- How many instructions lie between `pc` and `end_pc` (R85). -/
def stepsLeft (s : State) : Nat :=
  (s.endPc.toNat - s.pc.toNat) / 4

/-- The conditions under which a well-formed instruction completes: the lines 7 and 8 of R86 do not refuse. -/
def Executable (i : Instr) (s : State) : Prop :=
  i.wellFormed = true ∧ admits s .data (instrEa s i) = true ∧ s.pc.toNat + 4 < 2 ^ 32

/-- Two states agree on all but the general registers. -/
def SameButGpr (s s' : State) : Prop :=
  s'.pc = s.pc ∧ s'.mem = s.mem ∧ s'.memMap = s.memMap ∧ s'.endPc = s.endPc ∧ s'.named = s.named

end Sys2Proof.Machine
end

