-- ==== Sys2Proof/Certificates/Slice0/Obligations.lean ====
section
/-! DEFINITION. The statements for the provers, one def Obligations.<Name> : Prop each, listed in
OBLIGATIONS.json. "Decision D<n>" is the spec's own choice in spec/92_eei_decisions.md: where a statement rests on one,
its docstring says so and the entry has basis 'derived' or cites no rule for that clause. Every statement quantifies
over all states, so none rests on a reset value, but for ResetMeetsInvariant, which says so. -/

open Sys2Proof Sys2Proof.Machine

/-! ### Encoding and decoding -/

/-- Decoding the word of an instruction gives the instruction back, every operand at every value, the invalid forms
among them (spec/30_encoding.md R42, R43, R46). -/
def Obligations.DecodeOfEncode : Prop :=
  ∀ i : Instr, decode (encode i) = .ok i

/-- A word that decodes is the word of the instruction it decodes to: no bit of it is dropped. -/
def Obligations.EncodeOfDecode : Prop :=
  ∀ (w : InstrWord) (i : Instr), decode w = .ok i → encode i = w

/-- R46: a word is an encoding of a row's instruction exactly when `(w & mask) = match`, which is exactly when
`OPCD`, `XO` and `Rc` have the row's values; and at most one row matches any word. -/
def Obligations.OpcodeMapSelectsExactly : Prop :=
  ∀ w : InstrWord,
    ((w &&& 0xFC000000 = 0x88000000 ↔ w.toNat / 2 ^ 26 = 34) ∧
      (w &&& 0xFC000000 = 0x88000000 ↔ ∃ rt ra d, decode w = .ok (.lbz rt ra d))) ∧
    ((w &&& 0xFC000000 = 0x8C000000 ↔ w.toNat / 2 ^ 26 = 35) ∧
      (w &&& 0xFC000000 = 0x8C000000 ↔ ∃ rt ra d, decode w = .ok (.lbzu rt ra d))) ∧
    ((w &&& 0xFC0007FF = 0x7C0000AE ↔
        w.toNat / 2 ^ 26 = 31 ∧ w.toNat / 2 % 2 ^ 10 = 87 ∧ w.toNat % 2 = 0) ∧
      (w &&& 0xFC0007FF = 0x7C0000AE ↔ ∃ rt ra rb, decode w = .ok (.lbzx rt ra rb))) ∧
    ((w &&& 0xFC0007FF = 0x7C0000EE ↔
        w.toNat / 2 ^ 26 = 31 ∧ w.toNat / 2 % 2 ^ 10 = 119 ∧ w.toNat % 2 = 0) ∧
      (w &&& 0xFC0007FF = 0x7C0000EE ↔ ∃ rt ra rb, decode w = .ok (.lbzux rt ra rb))) ∧
    (opcodeMap.filter (fun row => row.matchesWord w)).length ≤ 1

/-- The decoding procedure of spec/30_encoding.md section 4 with its shifts and masks as divisions: which fields the
decoded instruction has, and that every other word is refused. -/
def Obligations.DecodeReadsTheFields : Prop :=
  ∀ w : InstrWord,
    (w.toNat / 2 ^ 26 = 34 → ∃ rt ra d, decode w = .ok (.lbz rt ra d) ∧
      rt.val = w.toNat / 2 ^ 21 % 2 ^ 5 ∧ ra.val = w.toNat / 2 ^ 16 % 2 ^ 5 ∧ d.toNat = w.toNat % 2 ^ 16) ∧
    (w.toNat / 2 ^ 26 = 35 → ∃ rt ra d, decode w = .ok (.lbzu rt ra d) ∧
      rt.val = w.toNat / 2 ^ 21 % 2 ^ 5 ∧ ra.val = w.toNat / 2 ^ 16 % 2 ^ 5 ∧ d.toNat = w.toNat % 2 ^ 16) ∧
    (w.toNat / 2 ^ 26 = 31 → w.toNat % 2 ^ 11 = 0x0AE → ∃ rt ra rb, decode w = .ok (.lbzx rt ra rb) ∧
      rt.val = w.toNat / 2 ^ 21 % 2 ^ 5 ∧ ra.val = w.toNat / 2 ^ 16 % 2 ^ 5 ∧
      rb.val = w.toNat / 2 ^ 11 % 2 ^ 5) ∧
    (w.toNat / 2 ^ 26 = 31 → w.toNat % 2 ^ 11 = 0x0EE → ∃ rt ra rb, decode w = .ok (.lbzux rt ra rb) ∧
      rt.val = w.toNat / 2 ^ 21 % 2 ^ 5 ∧ ra.val = w.toNat / 2 ^ 16 % 2 ^ 5 ∧
      rb.val = w.toNat / 2 ^ 11 % 2 ^ 5) ∧
    (w.toNat / 2 ^ 26 ≠ 34 → w.toNat / 2 ^ 26 ≠ 35 →
      ¬(w.toNat / 2 ^ 26 = 31 ∧ (w.toNat % 2 ^ 11 = 0x0AE ∨ w.toNat % 2 ^ 11 = 0x0EE)) →
      decode w = .error .unknownEncoding)

/-- A step that fetches a word no row of the opcode map matches is refused by name, and an X-form word of `lbzx` or
`lbzux` with bit 31 set is such a word (decisions D8 and D9). -/
def Obligations.UnmatchedWordRefused : Prop :=
  (∀ (s : State) (w : InstrWord), s.pc ≠ s.endPc → fetch s = .ok w →
    (∀ row ∈ opcodeMap, row.matchesWord w = false) → step s = .refused .unknownEncoding) ∧
  (∀ w : InstrWord, w.toNat / 2 ^ 26 = 31 →
    (w.toNat / 2 % 2 ^ 10 = 87 ∨ w.toNat / 2 % 2 ^ 10 = 119) → w.toNat % 2 = 1 →
    ∀ row ∈ opcodeMap, row.matchesWord w = false)

/-- The four opcode words as instructions: two are legal and address byte 0 and byte `low32(x[0])`, two are invalid
forms, which every state refuses (an inference of spec/30_encoding.md section 4 marked as derived; decision D7). -/
def Obligations.BareOpcodeWords : Prop :=
  decode 0x88000000 = .ok (.lbz 0 0 0) ∧ decode 0x7C0000AE = .ok (.lbzx 0 0 0) ∧
  decode 0x8C000000 = .ok (.lbzu 0 0 0) ∧ decode 0x7C0000EE = .ok (.lbzux 0 0 0) ∧
  ∀ s : State, instrEa s (.lbz 0 0 0) = 0 ∧ instrEa s (.lbzx 0 0 0) = (readGpr s 0).setWidth 32 ∧
    exec (.lbzu 0 0 0) s = .refused .invalidForm ∧ exec (.lbzux 0 0 0) s = .refused .invalidForm

/-- Words of spec/95_test_vectors.md 2.1 (E2, E4, E9, E14, E18, X11, X16, X19), read bit by bit from the formats. -/
def Obligations.SampleWordsDecode : Prop :=
  decode 0x88A4FFFF = .ok (.lbz 5 4 0xFFFF) ∧ decode 0x88698000 = .ok (.lbz 3 9 0x8000) ∧
  decode 0x8CC7FFFE = .ok (.lbzu 6 7 0xFFFE) ∧ decode 0x7FFFF8AE = .ok (.lbzx 31 31 31) ∧
  decode 0x7FFEE8EE = .ok (.lbzux 31 30 29) ∧ decode 0x7C6428AF = .error .unknownEncoding ∧
  decode 0x7C0002AE = .error .unknownEncoding ∧ decode 0x90000000 = .error .unknownEncoding

/-- R44: `d` is the field at bits 16 to 31 of the word, a two's complement number from −32768 to 32767, sign-extended
to 64 bits, neither scaled nor shifted, and it is what the D forms add to the base. -/
def Obligations.DisplacementIsSigned : Prop :=
  (∀ (w : InstrWord) (rt ra : Reg) (d : Disp),
    decode w = .ok (.lbz rt ra d) ∨ decode w = .ok (.lbzu rt ra d) → d.toNat = w.toNat % 2 ^ 16) ∧
  (∀ d : Disp, (sext64 d).toInt = d.toInt ∧ -32768 ≤ d.toInt ∧ d.toInt ≤ 32767) ∧
  (∀ (s : State) (rt ra : Reg) (d : Disp),
    instrEa s (.lbz rt ra d) = (base0 s ra + sext64 d).setWidth 32 ∧
    instrEa s (.lbzu rt ra d) = (readGpr s ra + sext64 d).setWidth 32) ∧
  sext64 0x7FFF = 0x0000000000007FFF ∧ sext64 0x8000 = 0xFFFFFFFFFFFF8000 ∧
  sext64 0xFFFF = 0xFFFFFFFFFFFFFFFF

/-- The text of a well-formed instruction assembles to it, and the text of an invalid form is rejected
(spec/30_encoding.md section 6; decision D23 and log entry 10 fix the spelling). -/
def Obligations.AssemblerRoundTrip : Prop :=
  ∀ i : Instr, parseAsm (asmText i) = if i.wellFormed then some i else none

/-! ### Registers and memory -/

/-- R14: no register is hardwired, `r0` included: every register holds what was last written. Field 0 is the constant
zero only as the base of `lbz` and `lbzx`; as `RB`, as the `RA` of the update forms and as `RT` it selects `r0`. -/
def Obligations.NoRegisterIsHardwired : Prop :=
  (∀ (s : State) (r r' : Reg) (v : Word),
    readGpr (writeGpr s r v) r' = if r' = r then v else readGpr s r') ∧
  (∀ (s : State) (rt ra rb : Reg) (d : Disp) (v : Word),
    instrEa (writeGpr s 0 v) (.lbz rt 0 d) = (sext64 d).setWidth 32 ∧
    instrEa s (.lbzx rt 0 rb) = (readGpr s rb).setWidth 32 ∧
    instrEa (writeGpr s 0 v) (.lbzx rt ra 0) = (base0 s ra + v).setWidth 32 ∧
    instrEa (writeGpr s 0 v) (.lbzu rt 0 d) = (v + sext64 d).setWidth 32 ∧
    instrEa (writeGpr s 0 v) (.lbzux rt ra 0) = (readGpr (writeGpr s 0 v) ra + v).setWidth 32 ∧
    instrEa (writeGpr s 0 v) (.lbzux rt 0 rb) = (v + readGpr (writeGpr s 0 v) rb).setWidth 32) ∧
  (∀ (s t : State) (i : Instr), i.rt = 0 → exec i s = .next t →
    readGpr t 0 = (readByte s (instrEa s i)).setWidth 64)

/-- Memory is an array of bytes and nothing more: two canonical memories that read the same at every 32-bit address
are the same data (spec/10_state.md section 6; the canonical form is the model's, log entry 3). -/
def Obligations.MemoryIsItsBytes : Prop :=
  ∀ m m' : Memory, m.wf = true → m'.wf = true →
    (∀ a : Addr, readCell m a.toNat = readCell m' a.toNat) → m = m'

/-- A fetch takes the four bytes at `pc`, the byte at the lowest address the most significant (decision D3), `pc` being
a multiple of 4 (decision D4) whose word ends inside the address space. -/
def Obligations.FetchIsBigEndian : Prop :=
  ∀ (s : State) (w : InstrWord), fetch s = .ok w →
    s.pc.toNat % 4 = 0 ∧ s.pc.toNat + 3 < 2 ^ 32 ∧
    w.toNat = (readCell s.mem s.pc.toNat).toNat * 2 ^ 24 + (readCell s.mem (s.pc.toNat + 1)).toNat * 2 ^ 16 +
      (readCell s.mem (s.pc.toNat + 2)).toNat * 2 ^ 8 + (readCell s.mem (s.pc.toNat + 3)).toNat ∧
    opcdField w = (readByte s s.pc).extractLsb' 2 6

/-- A word placed by the launch at a multiple of 4 is the word standing there, its first byte bits 0 to 7 (decision D3);
every byte outside its four is as before. -/
def Obligations.PlacedWordReadsBack : Prop :=
  ∀ (s : State) (a : Addr) (w : InstrWord), s.mem.wf = true → a.toNat % 4 = 0 →
    wordAt { s with mem := placeWord s.mem a w } a = w ∧
    readCell (placeWord s.mem a w) a.toNat = w.extractLsb' 24 8 ∧
    ∀ b : Addr, (b.toNat < a.toNat ∨ a.toNat + 3 < b.toNat) →
      readCell (placeWord s.mem a w) b.toNat = readCell s.mem b.toNat

/-! ### The instructions: what each computes, and that it completes -/

/-- R61. For every state with the address admitted and `pc` below the top, `lbz` answers a next state: `RT` holds the
byte at `EA` zero-extended, `pc` is 4 further, all else is unchanged. Not admitted: refused by name. That the address
is the low 32 bits of the sum is decision D1; admission and the condition on `pc` are decisions D5, D6 and D2. -/
def Obligations.LbzLoadsTheByte : Prop :=
  (∀ w : InstrWord, w &&& 0xFC000000 = 0x88000000 → decode w = .ok (.lbz (rtField w) (raField w) (dField w))) ∧
  ∀ (rt ra : Reg) (d : Disp) (s : State) (ea : Addr),
    ea = ((if ra = 0 then 0 else readGpr s ra) + d.signExtend 64).setWidth 32 →
    (admits s .data ea = false → exec (.lbz rt ra d) s = .refused .dataNotAdmitted) ∧
    (admits s .data ea = true → s.pc.toNat + 4 < 2 ^ 32 →
      ∃ t, exec (.lbz rt ra d) s = .next t ∧ readGpr t rt = (readByte s ea).setWidth 64 ∧
        t.pc = s.pc + 4 ∧ OnlyWrites [rt] s t)

/-- R62. As R61 for `lbzu`, whose base is `x[ra]` and which also writes the zero-extended `EA` to `RA`; `RA = 0` and
`RA = RT` are refused before anything else. Decisions as for `lbz`, and D7. -/
def Obligations.LbzuLoadsAndUpdates : Prop :=
  (∀ w : InstrWord, w &&& 0xFC000000 = 0x8C000000 → decode w = .ok (.lbzu (rtField w) (raField w) (dField w))) ∧
  ∀ (rt ra : Reg) (d : Disp) (s : State) (ea : Addr),
    ea = (readGpr s ra + d.signExtend 64).setWidth 32 →
    (ra = 0 ∨ ra = rt → exec (.lbzu rt ra d) s = .refused .invalidForm) ∧
    (ra ≠ 0 → ra ≠ rt → admits s .data ea = false → exec (.lbzu rt ra d) s = .refused .dataNotAdmitted) ∧
    (ra ≠ 0 → ra ≠ rt → admits s .data ea = true → s.pc.toNat + 4 < 2 ^ 32 →
      ∃ t, exec (.lbzu rt ra d) s = .next t ∧ readGpr t rt = (readByte s ea).setWidth 64 ∧
        readGpr t ra = ea.setWidth 64 ∧ t.pc = s.pc + 4 ∧ OnlyWrites [rt, ra] s t)

/-- R63. As R61 for `lbzx`, whose offset is the index register `x[rb]`. -/
def Obligations.LbzxLoadsTheByte : Prop :=
  (∀ w : InstrWord, w &&& 0xFC0007FF = 0x7C0000AE → decode w = .ok (.lbzx (rtField w) (raField w) (rbField w))) ∧
  ∀ (rt ra rb : Reg) (s : State) (ea : Addr),
    ea = ((if ra = 0 then 0 else readGpr s ra) + readGpr s rb).setWidth 32 →
    (admits s .data ea = false → exec (.lbzx rt ra rb) s = .refused .dataNotAdmitted) ∧
    (admits s .data ea = true → s.pc.toNat + 4 < 2 ^ 32 →
      ∃ t, exec (.lbzx rt ra rb) s = .next t ∧ readGpr t rt = (readByte s ea).setWidth 64 ∧
        t.pc = s.pc + 4 ∧ OnlyWrites [rt] s t)

/-- R64. As R62 for `lbzux`, whose offset is the index register `x[rb]`. -/
def Obligations.LbzuxLoadsAndUpdates : Prop :=
  (∀ w : InstrWord, w &&& 0xFC0007FF = 0x7C0000EE → decode w = .ok (.lbzux (rtField w) (raField w) (rbField w))) ∧
  ∀ (rt ra rb : Reg) (s : State) (ea : Addr),
    ea = (readGpr s ra + readGpr s rb).setWidth 32 →
    (ra = 0 ∨ ra = rt → exec (.lbzux rt ra rb) s = .refused .invalidForm) ∧
    (ra ≠ 0 → ra ≠ rt → admits s .data ea = false → exec (.lbzux rt ra rb) s = .refused .dataNotAdmitted) ∧
    (ra ≠ 0 → ra ≠ rt → admits s .data ea = true → s.pc.toNat + 4 < 2 ^ 32 →
      ∃ t, exec (.lbzux rt ra rb) s = .next t ∧ readGpr t rt = (readByte s ea).setWidth 64 ∧
        readGpr t ra = ea.setWidth 64 ∧ t.pc = s.pc + 4 ∧ OnlyWrites [rt, ra] s t)

/-! ### The instructions: rules they share -/

/-- R57: the base of `lbz` and `lbzx` is `(RA|0)`, that of `lbzu` and `lbzux` the register the field selects; the rule's
example `lbz RT, 0x4000(0)` reads from absolute address 0x4000. -/
def Obligations.BaseOperandRule : Prop :=
  ∀ (s : State) (rt ra rb : Reg) (d : Disp),
    instrEa s (.lbz rt 0 d) = low32 (0 + sext64 d) ∧ instrEa s (.lbzx rt 0 rb) = low32 (0 + readGpr s rb) ∧
    (ra ≠ 0 → instrEa s (.lbz rt ra d) = low32 (readGpr s ra + sext64 d) ∧
      instrEa s (.lbzx rt ra rb) = low32 (readGpr s ra + readGpr s rb)) ∧
    instrEa s (.lbzu rt ra d) = low32 (readGpr s ra + sext64 d) ∧
    instrEa s (.lbzux rt ra rb) = low32 (readGpr s ra + readGpr s rb) ∧
    instrEa s (.lbz rt 0 0x4000) = 0x4000

/-- The effective address as a number: the low 32 bits of the 64-bit wrapping sum, which is the sum of the low halves
modulo 2^32 (decision D1). -/
def Obligations.EffectiveAddressIsLow32 : Prop :=
  ∀ (s : State) (rt ra rb : Reg) (d : Disp) (base offset : Word) (i : Instr),
    (i = .lbz rt ra d ∧ base = base0 s ra ∧ offset = sext64 d) ∨
    (i = .lbzu rt ra d ∧ base = readGpr s ra ∧ offset = sext64 d) ∨
    (i = .lbzx rt ra rb ∧ base = base0 s ra ∧ offset = readGpr s rb) ∨
    (i = .lbzux rt ra rb ∧ base = readGpr s ra ∧ offset = readGpr s rb) →
    (instrEa s i).toNat = (base.toNat + offset.toNat) % 2 ^ 64 % 2 ^ 32 ∧
    (instrEa s i).toNat = (base.toNat % 2 ^ 32 + offset.toNat % 2 ^ 32) % 2 ^ 32

/-- `lbz rt, d(0)` reads address `d` for `d ≥ 0` and address `2^32 + d` for `d < 0` (corner case of
spec/40_load_byte_zero.md 2.1; decision D1). -/
def Obligations.LbzAbsoluteAddress : Prop :=
  ∀ (s : State) (rt : Reg) (d : Disp),
    ((instrEa s (.lbz rt 0 d)).toNat : Int) = if 0 ≤ d.toInt then d.toInt else 2 ^ 32 + d.toInt

/-- R59: after any of the four, `RT` holds the byte at `EA`, zero-extended: below 256, never negative. -/
def Obligations.LoadedValueIsZeroExtended : Prop :=
  ∀ (i : Instr) (s t : State), exec i s = .next t →
    readGpr t i.rt = (readByte s (instrEa s i)).setWidth 64 ∧
    (readGpr t i.rt).toNat = (readCell s.mem (instrEa s i).toNat).toNat ∧
    (readGpr t i.rt).toNat < 256 ∧ 0 ≤ (readGpr t i.rt).toInt

/-- R60: after `lbzu` and `lbzux`, `RA` holds the effective address, zero-extended, and `RT` the byte at the address
`RA` now holds; `lbz` and `lbzx` never write `RA` as base (only when it is their `RT`). -/
def Obligations.UpdateWritesEffectiveAddress : Prop :=
  (∀ (rt ra rb : Reg) (d : Disp) (i : Instr) (s t : State), i = .lbzu rt ra d ∨ i = .lbzux rt ra rb →
    exec i s = .next t →
    readGpr t ra = (instrEa s i).setWidth 64 ∧ (readGpr t ra).toNat < 2 ^ 32 ∧
    readGpr t rt = (readByte t ((readGpr t ra).setWidth 32)).setWidth 64) ∧
  (∀ (rt ra rb : Reg) (d : Disp) (i : Instr) (s t : State), i = .lbz rt ra d ∨ i = .lbzx rt ra rb →
    exec i s = .next t → ra ≠ rt → readGpr t ra = readGpr s ra)

/-- R65: what each instruction leaves unchanged. `lbz` and `lbzx` change only `RT` and `pc`, `lbzu` and `lbzux` only
`RT`, `RA` and `pc`: every other register, every byte of memory and every named-only register is as before, and the
next instruction is the one at `pc + 4`. -/
def Obligations.InstructionFrame : Prop :=
  ∀ (rt ra rb : Reg) (d : Disp) (s t : State),
    (exec (.lbz rt ra d) s = .next t → t.pc = s.pc + 4 ∧ OnlyWrites [rt] s t) ∧
    (exec (.lbzu rt ra d) s = .next t → t.pc = s.pc + 4 ∧ OnlyWrites [rt, ra] s t) ∧
    (exec (.lbzx rt ra rb) s = .next t → t.pc = s.pc + 4 ∧ OnlyWrites [rt] s t) ∧
    (exec (.lbzux rt ra rb) s = .next t → t.pc = s.pc + 4 ∧ OnlyWrites [rt, ra] s t)

/-- R19: the four instructions write none of the named-only registers (flags among them) and read none: whatever such
a register holds, the outcome is the same. -/
def Obligations.StatusNeitherReadNorWritten : Prop :=
  ∀ (i : Instr) (s : State) (n : NamedOnly),
    (∀ t, exec i s = .next t → t.named = s.named ∧ exec i { s with named := n } = .next { t with named := n }) ∧
    (∀ r, exec i s = .refused r → exec i { s with named := n } = .refused r)

/-- An instruction advances `pc` by exactly 4 without wrapping; a well-formed one whose address is admitted is refused
with `PcOverflow` exactly when `pc + 4 ≥ 2^32`, which for an aligned `pc` is 0xFFFFFFFC alone (decision D2). -/
def Obligations.PcAdvancesByFour : Prop :=
  (∀ (i : Instr) (s t : State), exec i s = .next t → t.pc.toNat = s.pc.toNat + 4) ∧
  (∀ (i : Instr) (s : State), i.wellFormed = true → admits s .data (instrEa s i) = true →
    (exec i s = .refused .pcOverflow ↔ 2 ^ 32 ≤ s.pc.toNat + 4)) ∧
  (∀ s : State, s.pc.toNat % 4 = 0 → (2 ^ 32 ≤ s.pc.toNat + 4 ↔ s.pc = 0xFFFFFFFC))

/-- Which instructions have an invalid form, and that it is refused in every state: `lbzu` and `lbzux` with `RA = 0` or
`RA = RT`; no other instruction, whatever its operands, is ever refused so (decision D7). -/
def Obligations.InvalidFormsRefused : Prop :=
  ∀ (rt ra rb : Reg) (d : Disp) (s : State),
    (exec (.lbzu rt ra d) s = .refused .invalidForm ↔ ra = 0 ∨ ra = rt) ∧
    (exec (.lbzux rt ra rb) s = .refused .invalidForm ↔ ra = 0 ∨ ra = rt) ∧
    exec (.lbz rt ra d) s ≠ .refused .invalidForm ∧ exec (.lbzx rt ra rb) s ≠ .refused .invalidForm

/-- An instruction answers a next state exactly when it is well formed, its address is admitted and `pc + 4` fits;
otherwise it is refused for one of three reasons, and it never faults: no exception exists (spec/60_exceptions.md
sections 1 and 4; decisions D6, D7, D12). -/
def Obligations.ExecCompletesExactly : Prop :=
  ∀ (i : Instr) (s : State),
    ((∃ t, exec i s = .next t) ↔ Executable i s) ∧
    (¬Executable i s → exec i s = .refused .invalidForm ∨ exec i s = .refused .dataNotAdmitted ∨
      exec i s = .refused .pcOverflow)

/-- The outcome depends only on the registers the instruction reads (spec/10_state.md section 1), the byte at `EA`, the
admission parameter and, for the overflow check, `pc`: two states that agree on those write the same values and are
refused alike. -/
def Obligations.OnlyOperandsMatter : Prop :=
  ∀ (i : Instr) (s s' : State), (∀ r ∈ gprReads i, readGpr s' r = readGpr s r) →
    readByte s' (instrEa s i) = readByte s (instrEa s i) → s'.memMap = s.memMap → s'.pc = s.pc →
    (∀ t, exec i s = .next t → ∃ t', exec i s' = .next t' ∧ ∀ r ∈ gprWrites i, readGpr t' r = readGpr t r) ∧
    (∀ r, exec i s = .refused r → exec i s' = .refused r)

/-- The high 32 bits of base and index never affect the outcome: states whose registers agree modulo 2^32 (and are
otherwise equal) write the same values and are refused alike (decision D1). -/
def Obligations.HighHalvesIgnored : Prop :=
  ∀ (i : Instr) (s s' : State), SameButGpr s s' →
    (∀ r, (readGpr s' r).toNat % 2 ^ 32 = (readGpr s r).toNat % 2 ^ 32) →
    (∀ t, exec i s = .next t → ∃ t', exec i s' = .next t' ∧ ∀ r ∈ gprWrites i, readGpr t' r = readGpr t r) ∧
    (∀ r, exec i s = .refused r → exec i s' = .refused r)

/-- The instructions are position-independent: at another `pc` below the top the same registers are written and `pc` is
shifted (an inference of spec/70_reset_and_hazards.md section 4 marked as derived). -/
def Obligations.PositionIndependent : Prop :=
  ∀ (i : Instr) (s t : State) (p : Addr), exec i s = .next t → p.toNat + 4 < 2 ^ 32 →
    exec i (setPc s p) = .next (setPc t (p + 4))

/-- A displacement form equals the indexed form whose index register holds the sign-extended displacement
(spec/40_load_byte_zero.md 2.1 to 2.4; property 3 of spec/95_test_vectors.md Part 4). -/
def Obligations.IndexedEqualsDisplacement : Prop :=
  ∀ (rt ra rb : Reg) (d : Disp) (s : State), readGpr s rb = d.signExtend 64 →
    exec (.lbzx rt ra rb) s = exec (.lbz rt ra d) s ∧ exec (.lbzux rt ra rb) s = exec (.lbzu rt ra d) s

/-! ### The step -/

/-- Where the bytes at `pc`, aligned and admitted, decode to a well-formed instruction and the run is not complete, the
step is that instruction's `exec`; the step adds nothing around it. -/
def Obligations.StepRunsDecodedInstr : Prop :=
  ∀ (s : State) (i : Instr), s.pc ≠ s.endPc → s.pc.toNat % 4 = 0 →
    (∀ k : Fin 4, admits s .fetch (s.pc + BitVec.ofNat 32 k.val) = true) →
    decodeBytes (readByte s s.pc) (readByte s (s.pc + 1)) (readByte s (s.pc + 2)) (readByte s (s.pc + 3)) = .ok i →
    i.wellFormed = true → step s = exec i s

/-- The order in which a step checks and the refusal it reports: `PcMisaligned`, `FetchNotAdmitted`,
`UnknownEncoding`, `InvalidForm`, `DataNotAdmitted`, `PcOverflow`, else a next state (decisions D4, D6, D7, D9, D2,
D24). -/
def Obligations.RefusalPriority : Prop :=
  ∀ s : State, s.pc ≠ s.endPc →
    (s.pc.toNat % 4 ≠ 0 → step s = .refused .pcMisaligned) ∧
    (s.pc.toNat % 4 = 0 →
      ((∃ k : Fin 4, admits s .fetch (s.pc + BitVec.ofNat 32 k.val) = false) →
        step s = .refused .fetchNotAdmitted) ∧
      ((∀ k : Fin 4, admits s .fetch (s.pc + BitVec.ofNat 32 k.val) = true) →
        (decode (wordAt s s.pc) = .error .unknownEncoding → step s = .refused .unknownEncoding) ∧
        (∀ i, decode (wordAt s s.pc) = .ok i →
          (i.wellFormed = false → step s = .refused .invalidForm) ∧
          (i.wellFormed = true → admits s .data (instrEa s i) = false → step s = .refused .dataNotAdmitted) ∧
          (i.wellFormed = true → admits s .data (instrEa s i) = true → 2 ^ 32 ≤ s.pc.toNat + 4 →
            step s = .refused .pcOverflow) ∧
          (i.wellFormed = true → admits s .data (instrEa s i) = true → s.pc.toNat + 4 < 2 ^ 32 →
            ∃ t, step s = .next t ∧ exec i s = .next t))))

/-- The step equals the nine lines of spec/70_reset_and_hazards.md section 3 written a second time in natural-number
arithmetic (Machine/Reference.lean), for every state. The lines are the spec's inference marked as derived, from its
decisions; the fault at `end_pc` is log entry 8. -/
def Obligations.StepRefinesReference : Prop :=
  ∀ s : State, step s = refStep s

/-- A step faults exactly when the run is complete, `pc = end_pc` (decision D15), and with no other fault than
`runComplete` (that the answer is a fault is the model's choice, log entry 8). -/
def Obligations.StepFaultsOnlyWhenComplete : Prop :=
  ∀ (s : State) (f : Fault), step s = .fault f ↔ f = .runComplete ∧ s.pc = s.endPc

/-- A state launched with a word at its next fetch runs exactly the instruction the word decodes to (log entry 9). -/
def Obligations.LaunchedWordRuns : Prop :=
  ∀ (s : State) (w : Nat) (i : Instr), s.mem.wf = true → decodeTableWord 32 w = some i →
    step (s.withFetchWord 32 w) = exec i (s.withFetchWord 32 w)

/-! ### Invariants and runs -/

/-- Every step keeps the invariant: `pc` and `end_pc` multiples of 4, `pc ≤ end_pc`, memory in canonical form. -/
def Obligations.StepKeepsInvariant : Prop :=
  ∀ s t : State, MachineInv s → step s = .next t → MachineInv t

/-- The reset state meets the invariant. Its values are the model's choices (log entries 1 to 7). -/
def Obligations.ResetMeetsInvariant : Prop :=
  MachineInv State.reset

/-- A misaligned `pc` is refused, and from a launch that meets premise 1 no run reaches a state whose step is refused
with `PcMisaligned` or `PcOverflow` (decisions D2, D4, D14). -/
def Obligations.PcRefusalsUnreachable : Prop :=
  (∀ s : State, s.pc ≠ s.endPc → s.pc.toNat % 4 ≠ 0 → step s = .refused .pcMisaligned) ∧
  (∀ (n : Nat) (s t : State), PcPremise s → runSteps n s = .next t →
    step t ≠ .refused .pcMisaligned ∧ step t ≠ .refused .pcOverflow)

/-- Memory, the parameters of the run and the named-only registers are the same at every step of a run
(decisions D5, D10, D15, D18). -/
def Obligations.MemoryConstantDuringRun : Prop :=
  ∀ (n : Nat) (s t : State), runSteps n s = .next t →
    (∀ a, readByte t a = readByte s a) ∧ t.mem = s.mem ∧ t.memMap = s.memMap ∧ t.endPc = s.endPc ∧
      t.named = s.named

/-- A load whose base is the constant zero and whose index is the register the load just before it wrote reads the byte
at the address that byte gives: there is no hazard (decision D17). -/
def Obligations.LoadUsesJustLoadedValue : Prop :=
  ∀ (s t u : State) (i : Instr) (rt : Reg), decode (wordAt s s.pc) = .ok i → step s = .next t →
    decode (wordAt t t.pc) = .ok (.lbzx rt 0 i.rt) → step t = .next u →
    readGpr u rt = (readByte s ((readByte s (instrEa s i)).setWidth 32)).setWidth 64

/-- A run from a launch that meets premise 1 takes exactly one step per word between `pc` and `end_pc`: after that many
it is complete or it was refused on the way, `pc` grows by 4 at each step, and no run is longer (decision D15). -/
def Obligations.RunEndsAtEndPc : Prop :=
  ∀ s : State, PcPremise s →
    ((∃ t, runSteps (stepsLeft s) s = .next t ∧ t.pc = t.endPc ∧ t.endPc = s.endPc) ∨
      ∃ r, runSteps (stepsLeft s) s = .refused r) ∧
    (∀ (n : Nat) (t : State), runSteps n s = .next t → t.pc.toNat = s.pc.toNat + 4 * n) ∧
    (∀ (n : Nat) (t : State), stepsLeft s < n → runSteps n s ≠ .next t)

/-- The premises 1 to 3 of a launch hold at every step, and under them the only refusal left is `DataNotAdmitted`
(decisions D14, D15). That the end of the run is answered as the fault `runComplete` is the model's choice, log entry
8. -/
def Obligations.LaunchPremisesKept : Prop :=
  ∀ s : State, LaunchPremises s →
    (∀ t, step s = .next t → LaunchPremises t) ∧
    (step s = .fault .runComplete ∨ (∃ t, step s = .next t) ∨ step s = .refused .dataNotAdmitted)

/-- A launch that meets the premises 1 to 4 completes: after one step per word, `pc = end_pc` and memory is as launched
(decisions D14, D15). -/
def Obligations.LaunchedRunCompletes : Prop :=
  ∀ s : State, LaunchPremises s → DataPremise s →
    ∃ t, runSteps (stepsLeft s) s = .next t ∧ t.pc = s.endPc ∧ t.mem = s.mem
end

