-- ==== Sys2Proof/Laws/Decode.lean ====
section
/-! SUPPORT. The fields of an instruction word as numbers, what decoding can answer, and the bytes of a word. -/

namespace Sys2Proof

/-- A field in IBM numbering as a number: shift and mask, the extraction column of spec/30_encoding.md R42, R43. -/
theorem ibmField_toNat (w : InstrWord) (a b : Nat) :
    (ibmField w a b).toNat = w.toNat / 2 ^ (31 - b) % 2 ^ (b - a + 1) := by
  simp [ibmField, Nat.shiftRight_eq_div_pow]

/-! ### The fields as numbers -/

theorem opcdField_toNat (w : InstrWord) : (opcdField w).toNat = w.toNat / 2 ^ 26 := by
  have := w.isLt
  simp only [opcdField, ibmField_toNat]
  omega

theorem rtField_val (w : InstrWord) : (rtField w).val = w.toNat / 2 ^ 21 % 2 ^ 5 :=
  ibmField_toNat w 6 10

theorem raField_val (w : InstrWord) : (raField w).val = w.toNat / 2 ^ 16 % 2 ^ 5 :=
  ibmField_toNat w 11 15

theorem rbField_val (w : InstrWord) : (rbField w).val = w.toNat / 2 ^ 11 % 2 ^ 5 :=
  ibmField_toNat w 16 20

theorem dField_toNat (w : InstrWord) : (dField w).toNat = w.toNat % 2 ^ 16 := by
  simp only [dField, ibmField_toNat]
  omega

theorem xoField_toNat (w : InstrWord) : (xoField w).toNat = w.toNat / 2 % 2 ^ 10 :=
  ibmField_toNat w 21 30

theorem rcField_toNat (w : InstrWord) : (rcField w).toNat = w.toNat % 2 := by
  simp only [rcField, ibmField_toNat]
  omega

/-- A primary opcode as a number. -/
theorem opcdField_eq_iff (w : InstrWord) (v : BitVec 6) : opcdField w = v ↔ w.toNat / 2 ^ 26 = v.toNat := by
  rw [← BitVec.toNat_inj, opcdField_toNat]

theorem opcdField_eq_34 (w : InstrWord) : opcdField w = 34 ↔ w.toNat / 2 ^ 26 = 34 :=
  opcdField_eq_iff w 34

theorem opcdField_eq_35 (w : InstrWord) : opcdField w = 35 ↔ w.toNat / 2 ^ 26 = 35 :=
  opcdField_eq_iff w 35

theorem opcdField_eq_31 (w : InstrWord) : opcdField w = 31 ↔ w.toNat / 2 ^ 26 = 31 :=
  opcdField_eq_iff w 31

/-- `XO` and `Rc` together as a number: `(w & 0x7FF)` of spec/30_encoding.md R47. -/
theorem xoRc_eq_iff (w : InstrWord) (v : BitVec 10) :
    (xoField w = v ∧ rcField w = 0) ↔ w.toNat % 2 ^ 11 = 2 * v.toNat := by
  have hv := v.isLt
  rw [← BitVec.toNat_inj, xoField_toNat, ← BitVec.toNat_inj, rcField_toNat,
    show (0 : BitVec 1).toNat = 0 from rfl]
  omega

theorem xoRc_eq_87 (w : InstrWord) : (xoField w = 87 ∧ rcField w = 0) ↔ w.toNat % 2 ^ 11 = 0x0AE :=
  xoRc_eq_iff w 87

theorem xoRc_eq_119 (w : InstrWord) : (xoField w = 119 ∧ rcField w = 0) ↔ w.toNat % 2 ^ 11 = 0x0EE :=
  xoRc_eq_iff w 119

theorem regOfField_val (f : BitVec 5) : (regOfField f).val = f.toNat := rfl

theorem regOfField_fieldOfReg (r : Reg) : regOfField (fieldOfReg r) = r := by
  apply Fin.ext
  simp only [regOfField, fieldOfReg, BitVec.toNat_ofNat]
  exact Nat.mod_eq_of_lt r.isLt

theorem fieldOfReg_regOfField (f : BitVec 5) : fieldOfReg (regOfField f) = f := by
  apply BitVec.eq_of_toNat_eq
  simp [regOfField, fieldOfReg]

theorem fieldOfReg_toNat (r : Reg) : (fieldOfReg r).toNat = r.val := by
  simp only [fieldOfReg, BitVec.toNat_ofNat]
  exact Nat.mod_eq_of_lt r.isLt

/-- Everything decoding can answer: one of the four rows with its fields, or a refusal. -/
theorem decode_cases (w : InstrWord) :
    (opcdField w = 34 ∧ decode w = .ok (.lbz (rtField w) (raField w) (dField w))) ∨
    (opcdField w = 35 ∧ decode w = .ok (.lbzu (rtField w) (raField w) (dField w))) ∨
    (opcdField w = 31 ∧ xoField w = 87 ∧ rcField w = 0 ∧
      decode w = .ok (.lbzx (rtField w) (raField w) (rbField w))) ∨
    (opcdField w = 31 ∧ xoField w = 119 ∧ rcField w = 0 ∧
      decode w = .ok (.lbzux (rtField w) (raField w) (rbField w))) ∨
    (opcdField w ≠ 34 ∧ opcdField w ≠ 35 ∧ ¬(opcdField w = 31 ∧ xoField w = 87 ∧ rcField w = 0) ∧
      ¬(opcdField w = 31 ∧ xoField w = 119 ∧ rcField w = 0) ∧ decode w = .error .unknownEncoding) := by
  unfold decode
  split
  · exact .inl ⟨‹_›, rfl⟩
  · split
    · exact .inr (.inl ⟨‹_›, rfl⟩)
    · split
      · next h => exact .inr (.inr (.inl ⟨h.1, h.2.1, h.2.2, rfl⟩))
      · split
        · next h => exact .inr (.inr (.inr (.inl ⟨h.1, h.2.1, h.2.2, rfl⟩)))
        · exact .inr (.inr (.inr (.inr ⟨‹_›, ‹_›, ‹_›, ‹_›, rfl⟩)))

/-- A form D word as a number: the formula of spec/95_test_vectors.md 2.1. -/
theorem encodeD_toNat (opcd : BitVec 6) (rt ra : Reg) (d : Disp) :
    (encodeD opcd rt ra d).toNat = opcd.toNat * 2 ^ 26 + rt.val * 2 ^ 21 + ra.val * 2 ^ 16 + d.toNat := by
  have hd := d.isLt
  have hr := ra.isLt
  have ht := rt.isLt
  simp only [encodeD, BitVec.toNat_append, fieldOfReg_toNat]
  rw [← Nat.shiftLeft_add_eq_or_of_lt (by omega), ← Nat.shiftLeft_add_eq_or_of_lt (by omega),
    ← Nat.shiftLeft_add_eq_or_of_lt (by omega)]
  simp only [Nat.shiftLeft_eq]
  omega

/-- A form X word as a number. -/
theorem encodeX_toNat (opcd : BitVec 6) (rt ra rb : Reg) (xo : BitVec 10) (rc : BitVec 1) :
    (encodeX opcd rt ra rb xo rc).toNat =
      opcd.toNat * 2 ^ 26 + rt.val * 2 ^ 21 + ra.val * 2 ^ 16 + rb.val * 2 ^ 11 + xo.toNat * 2 + rc.toNat := by
  have hx := xo.isLt
  have hc := rc.isLt
  have hb := rb.isLt
  have hr := ra.isLt
  have ht := rt.isLt
  simp only [encodeX, BitVec.toNat_append, fieldOfReg_toNat]
  rw [← Nat.shiftLeft_add_eq_or_of_lt (by omega), ← Nat.shiftLeft_add_eq_or_of_lt (by omega),
    ← Nat.shiftLeft_add_eq_or_of_lt (by omega), ← Nat.shiftLeft_add_eq_or_of_lt (by omega),
    ← Nat.shiftLeft_add_eq_or_of_lt (by omega)]
  simp only [Nat.shiftLeft_eq]
  omega

/-- The assembled word as a number: the byte at the lowest address is the most significant. -/
theorem wordOfBytes_toNat (b0 b1 b2 b3 : Byte) :
    (wordOfBytes b0 b1 b2 b3).toNat =
      b0.toNat * 2 ^ 24 + b1.toNat * 2 ^ 16 + b2.toNat * 2 ^ 8 + b3.toNat := by
  have h1 := b1.isLt
  have h2 := b2.isLt
  have h3 := b3.isLt
  simp only [wordOfBytes, BitVec.toNat_append]
  rw [← Nat.shiftLeft_add_eq_or_of_lt (by omega), ← Nat.shiftLeft_add_eq_or_of_lt (by omega),
    ← Nat.shiftLeft_add_eq_or_of_lt (by omega)]
  simp only [Nat.shiftLeft_eq]
  omega

theorem byteOfWord_toNat (w : InstrWord) (k : Nat) :
    (byteOfWord w k).toNat = w.toNat / 2 ^ (8 * (3 - k)) % 2 ^ 8 := by
  simp [byteOfWord, Nat.shiftRight_eq_div_pow]

/-- The bytes of a word, assembled again, are the word. -/
theorem wordOfBytes_byteOfWord (w : InstrWord) :
    wordOfBytes (byteOfWord w 0) (byteOfWord w 1) (byteOfWord w 2) (byteOfWord w 3) = w := by
  apply BitVec.eq_of_toNat_eq
  have hw := w.isLt
  simp only [wordOfBytes_toNat, byteOfWord_toNat]
  omega

end Sys2Proof
end

