-- ==== Sys2Proof/Laws/State.lean ====
section
/-! SUPPORT. One lemma per field per update of State, true by rfl, so that no later proof unfolds a record update;
and what each reader sees after each update. -/

namespace Sys2Proof.Machine

variable (s : State) (r : Reg) (v : Word) (t : Addr) (w : InstrWord)

/-! ### writeGpr -/

@[simp] theorem writeGpr_gpr : (writeGpr s r v).gpr = s.gpr.set r.val v := rfl
@[simp] theorem writeGpr_pc : (writeGpr s r v).pc = s.pc := rfl
@[simp] theorem writeGpr_mem : (writeGpr s r v).mem = s.mem := rfl
@[simp] theorem writeGpr_memMap : (writeGpr s r v).memMap = s.memMap := rfl
@[simp] theorem writeGpr_endPc : (writeGpr s r v).endPc = s.endPc := rfl
@[simp] theorem writeGpr_named : (writeGpr s r v).named = s.named := rfl

/-! ### setPc -/

@[simp] theorem setPc_gpr : (setPc s t).gpr = s.gpr := rfl
@[simp] theorem setPc_pc : (setPc s t).pc = t := rfl
@[simp] theorem setPc_mem : (setPc s t).mem = s.mem := rfl
@[simp] theorem setPc_memMap : (setPc s t).memMap = s.memMap := rfl
@[simp] theorem setPc_endPc : (setPc s t).endPc = s.endPc := rfl
@[simp] theorem setPc_named : (setPc s t).named = s.named := rfl

/-! ### advancePc -/

@[simp] theorem advancePc_gpr : (advancePc s).gpr = s.gpr := rfl
@[simp] theorem advancePc_pc : (advancePc s).pc = s.pc + 4 := rfl
@[simp] theorem advancePc_mem : (advancePc s).mem = s.mem := rfl
@[simp] theorem advancePc_memMap : (advancePc s).memMap = s.memMap := rfl
@[simp] theorem advancePc_endPc : (advancePc s).endPc = s.endPc := rfl
@[simp] theorem advancePc_named : (advancePc s).named = s.named := rfl

/-! ### launchWord -/

@[simp] theorem launchWord_gpr : (launchWord s w).gpr = s.gpr := rfl
@[simp] theorem launchWord_pc : (launchWord s w).pc = s.pc &&& 0xFFFFFFFC := rfl
@[simp] theorem launchWord_mem : (launchWord s w).mem = placeWord s.mem (s.pc &&& 0xFFFFFFFC) w := rfl
@[simp] theorem launchWord_named : (launchWord s w).named = s.named := rfl
theorem launchWord_memMap :
    (launchWord s w).memMap =
      if fetchAdmitted (setPc s (s.pc &&& 0xFFFFFFFC)) then s.memMap
      else ⟨.fetch, s.pc &&& 0xFFFFFFFC, (s.pc &&& 0xFFFFFFFC) + 3⟩ :: s.memMap := rfl
theorem launchWord_endPc :
    (launchWord s w).endPc =
      if s.endPc = s.pc &&& 0xFFFFFFFC then (s.pc &&& 0xFFFFFFFC) + 4 else s.endPc := rfl

/-! ### Readers depend on their own field alone -/

theorem readGpr_congr {s s' : State} (h : s'.gpr = s.gpr) (r : Reg) : readGpr s' r = readGpr s r := by
  simp only [readGpr, h]

theorem readByte_congr {s s' : State} (h : s'.mem = s.mem) (a : Addr) : readByte s' a = readByte s a := by
  simp only [readByte, h]

theorem admits_congr {s s' : State} (h : s'.memMap = s.memMap) (k : AccessKind) (a : Addr) :
    admits s' k a = admits s k a := by
  simp only [admits, h]

theorem wordAt_congr {s s' : State} (h : s'.mem = s.mem) (a : Addr) : wordAt s' a = wordAt s a := by
  simp only [wordAt, readByte_congr h]

/-! ### Registers: read after write -/

theorem readGpr_writeGpr_self : readGpr (writeGpr s r v) r = v := by
  simp [readGpr]

theorem readGpr_writeGpr_of_ne {r r' : Reg} (h : r' ≠ r) :
    readGpr (writeGpr s r v) r' = readGpr s r' := by
  have h' : r.val ≠ r'.val := fun e => h (Fin.ext e.symm)
  simp [readGpr, Vector.getElem_set_ne, h']

theorem readGpr_setPc : readGpr (setPc s t) r = readGpr s r := rfl

theorem readGpr_advancePc : readGpr (advancePc s) r = readGpr s r := rfl

/-- Two states are equal when their registers read the same and their other fields are equal. -/
theorem state_ext_readGpr {s s' : State} (hg : ∀ r, readGpr s' r = readGpr s r) (hp : s'.pc = s.pc)
    (hm : s'.mem = s.mem) (ha : s'.memMap = s.memMap) (he : s'.endPc = s.endPc) (hn : s'.named = s.named) :
    s' = s := by
  have hv : s'.gpr = s.gpr := Vector.ext fun k hk => hg ⟨k, hk⟩
  cases s
  cases s'
  simp_all

end Sys2Proof.Machine
end

