-- ==== Sys2Proof/Laws/LoadByte.lean ====
section
/-! SUPPORT. What each shared operation of a step can do, said once: the load, the fetch, the step. Later proofs
cite these and unfold none of them. -/

namespace Sys2Proof.Machine

theorem pcOverflows_eq_true_iff (s : State) : pcOverflows s = true ↔ 2 ^ 32 ≤ s.pc.toNat + 4 := by
  simp [pcOverflows, Config.addrCount, Config.instrBytes]

theorem pcOverflows_eq_false_iff (s : State) : pcOverflows s = false ↔ s.pc.toNat + 4 < 2 ^ 32 := by
  rw [← Bool.not_eq_true, pcOverflows_eq_true_iff, Nat.not_le]

theorem pcAligned_eq_false_iff (s : State) : pcAligned s = false ↔ s.pc.toNat % 4 ≠ 0 := by
  simp [pcAligned, Config.instrBytes]

theorem runComplete_eq_true_iff (s : State) : runComplete s = true ↔ s.pc = s.endPc := by
  simp [runComplete]

/-- The check of the meanings and the check of WellFormed.lean are one. -/
theorem invalidUpdate_eq_lbzu (rt ra : Reg) (d : Disp) :
    invalidUpdate rt ra = (Instr.lbzu rt ra d).invalidForm := rfl

theorem invalidUpdate_eq_lbzux (rt ra rb : Reg) :
    invalidUpdate rt ra = (Instr.lbzux rt ra rb).invalidForm := rfl

theorem invalidUpdate_eq_true_iff (rt ra : Reg) : invalidUpdate rt ra = true ↔ ra = 0 ∨ ra = rt := by
  simp [invalidUpdate]

theorem invalidUpdate_eq_false_iff (rt ra : Reg) : invalidUpdate rt ra = false ↔ ra ≠ 0 ∧ ra ≠ rt := by
  simp [invalidUpdate]

/-! ### The load -/

/-- Everything the shared load can do. -/
theorem loadByteZero_cases (rt : Reg) (ea : Addr) (u : Option Reg) (s : State) :
    (admits s .data ea = false ∧ loadByteZero rt ea u s = .refused .dataNotAdmitted) ∨
    (admits s .data ea = true ∧ 2 ^ 32 ≤ s.pc.toNat + 4 ∧ loadByteZero rt ea u s = .refused .pcOverflow) ∨
    (admits s .data ea = true ∧ s.pc.toNat + 4 < 2 ^ 32 ∧
      loadByteZero rt ea u s = .next (loadWrites rt ea u s)) := by
  unfold loadByteZero
  split
  · exact .inl ⟨‹_›, rfl⟩
  · next ha =>
    have ha' : admits s .data ea = true := by simpa using ha
    split
    · next h => exact .inr (.inl ⟨ha', (pcOverflows_eq_true_iff s).1 h, rfl⟩)
    · next h =>
      exact .inr (.inr ⟨ha', (pcOverflows_eq_false_iff s).1 (by simpa using h), rfl⟩)

/-- When the load answers a next state, and which. -/
theorem loadByteZero_eq_next_iff (rt : Reg) (ea : Addr) (u : Option Reg) (s t : State) :
    loadByteZero rt ea u s = .next t ↔
      admits s .data ea = true ∧ s.pc.toNat + 4 < 2 ^ 32 ∧ t = loadWrites rt ea u s := by
  rcases loadByteZero_cases rt ea u s with ⟨h1, h2⟩ | ⟨h1, h2, h3⟩ | ⟨h1, h2, h3⟩
  · simp [h1, h2]
  · rw [h3]
    exact ⟨nofun, fun h => by omega⟩
  · rw [h3]
    exact ⟨fun h => ⟨h1, h2, (Host.Outcome.next.inj h).symm⟩, fun h => by rw [h.2.2]⟩

section Writes

variable (rt ra : Reg) (ea : Addr) (u : Option Reg) (s : State)

@[simp] theorem loadWrites_pc : (loadWrites rt ea u s).pc = s.pc + 4 := by
  cases u <;> rfl

@[simp] theorem loadWrites_mem : (loadWrites rt ea u s).mem = s.mem := by
  cases u <;> rfl

@[simp] theorem loadWrites_memMap : (loadWrites rt ea u s).memMap = s.memMap := by
  cases u <;> rfl

@[simp] theorem loadWrites_endPc : (loadWrites rt ea u s).endPc = s.endPc := by
  cases u <;> rfl

@[simp] theorem loadWrites_named : (loadWrites rt ea u s).named = s.named := by
  cases u <;> rfl

theorem readGpr_loadWrites_none (r : Reg) :
    readGpr (loadWrites rt ea none s) r = if r = rt then zextByte (readByte s ea) else readGpr s r := by
  have h : readGpr (loadWrites rt ea none s) r = readGpr (writeGpr s rt (zextByte (readByte s ea))) r := rfl
  rw [h]
  split
  · next e => rw [e, readGpr_writeGpr_self]
  · next e => rw [readGpr_writeGpr_of_ne _ _ e]

theorem readGpr_loadWrites_some (r : Reg) :
    readGpr (loadWrites rt ea (some ra) s) r =
      if r = ra then zextAddr ea else if r = rt then zextByte (readByte s ea) else readGpr s r := by
  have h : readGpr (loadWrites rt ea (some ra) s) r =
      readGpr (writeGpr (writeGpr s rt (zextByte (readByte s ea))) ra (zextAddr ea)) r := rfl
  rw [h]
  split
  · next e => rw [e, readGpr_writeGpr_self]
  · next e =>
    rw [readGpr_writeGpr_of_ne _ _ e]
    split
    · next e' => rw [e', readGpr_writeGpr_self]
    · next e' => rw [readGpr_writeGpr_of_ne _ _ e']

end Writes

/-- No instruction writes the admission parameter. -/
theorem exec_memMap {i : Instr} {s t : State} (h : exec i s = .next t) : t.memMap = s.memMap := by
  have key : ∀ rt ea u, loadByteZero rt ea u s = .next t → t.memMap = s.memMap := fun rt ea u hl => by
    rw [((loadByteZero_eq_next_iff rt ea u s t).1 hl).2.2, loadWrites_memMap]
  cases i with
  | lbz rt ra d => exact key _ _ _ h
  | lbzx rt ra rb => exact key _ _ _ h
  | lbzu rt ra d =>
    simp only [exec, execLbzu] at h
    split at h
    · cases h
    · exact key _ _ _ h
  | lbzux rt ra rb =>
    simp only [exec, execLbzux] at h
    split at h
    · cases h
    · exact key _ _ _ h

/-! ### The fetch and the step -/

/-- Everything the fetch can answer. -/
theorem fetch_cases (s : State) :
    (s.pc.toNat % 4 ≠ 0 ∧ fetch s = .error .pcMisaligned) ∨
    (s.pc.toNat % 4 = 0 ∧ fetchAdmitted s = false ∧ fetch s = .error .fetchNotAdmitted) ∨
    (s.pc.toNat % 4 = 0 ∧ fetchAdmitted s = true ∧ fetch s = .ok (wordAt s s.pc)) := by
  unfold fetch
  split
  · next h => exact .inl ⟨(pcAligned_eq_false_iff s).1 h, rfl⟩
  · next h =>
    have h4 : s.pc.toNat % 4 = 0 := by
      by_contra hn
      exact h ((pcAligned_eq_false_iff s).2 hn)
    split
    · exact .inr (.inl ⟨h4, ‹_›, rfl⟩)
    · next hf => exact .inr (.inr ⟨h4, by simpa using hf, rfl⟩)

/-- Everything a step can do: the run is complete, the fetch or the decoder refuses, or the decoded instruction
runs. -/
theorem step_cases (s : State) :
    (s.pc = s.endPc ∧ step s = .fault .runComplete) ∨
    (s.pc ≠ s.endPc ∧ ∃ r, fetch s = .error r ∧ step s = .refused r) ∨
    (s.pc ≠ s.endPc ∧ ∃ w, fetch s = .ok w ∧ decode w = .error .unknownEncoding ∧
      step s = .refused .unknownEncoding) ∨
    (s.pc ≠ s.endPc ∧ ∃ w i, fetch s = .ok w ∧ decode w = .ok i ∧ step s = exec i s) := by
  by_cases hc : s.pc = s.endPc
  · exact .inl ⟨hc, by rw [step, if_pos ((runComplete_eq_true_iff s).2 hc)]⟩
  · have hc' : ¬ runComplete s = true := fun h => hc ((runComplete_eq_true_iff s).1 h)
    refine .inr ?_
    rw [step, if_neg hc']
    cases hf : fetch s with
    | error r => exact .inl ⟨hc, r, rfl, rfl⟩
    | ok w =>
      cases hd : decode w with
      | error e =>
        cases e
        exact .inr (.inl ⟨hc, w, rfl, hd, by simp [hd, refusalOfDecode]⟩)
      | ok i => exact .inr (.inr ⟨hc, w, i, rfl, hd, by simp [hd]⟩)

end Sys2Proof.Machine
end

