-- ==== Sys2Proof/Laws/Memory.lean ====
section
/-! SUPPORT. The memory laws: every memory operation keeps the canonical form, and a read after a write. -/

namespace Sys2Proof.Machine

theorem wfFrom_cons {lo a : Nat} {b : Byte} {m : Memory} :
    wfFrom lo ((a, b) :: m) = true ↔
      lo ≤ a ∧ a < Config.addrCount ∧ b ≠ Config.unlistedByte ∧ wfFrom (a + 1) m = true := by
  simp [wfFrom, and_assoc]

theorem wfFrom_mono {lo lo' : Nat} {m : Memory} (h : lo ≤ lo') (hm : wfFrom lo' m = true) :
    wfFrom lo m = true := by
  cases m with
  | nil => rfl
  | cons c m =>
    rw [wfFrom_cons] at hm ⊢
    exact ⟨h.trans hm.1, hm.2⟩

/-- Below the first listed address every byte is unlisted. -/
theorem readCell_below {lo k : Nat} {m : Memory} (hm : wfFrom lo m = true) (hk : k < lo) :
    readCell m k = Config.unlistedByte := by
  induction m generalizing lo with
  | nil => rfl
  | cons c m ih =>
    obtain ⟨h1, -, -, h4⟩ := wfFrom_cons.1 hm
    have hne : c.1 ≠ k := by omega
    simp only [readCell, hne, if_false]
    exact ih h4 (by omega)

theorem wfFrom_consCell {lo k : Nat} {v : Byte} {m : Memory} (hlo : lo ≤ k) (hk : k < Config.addrCount)
    (hm : wfFrom (k + 1) m = true) : wfFrom lo (consCell k v m) = true := by
  unfold consCell
  split
  · exact wfFrom_mono (by omega) hm
  · exact wfFrom_cons.2 ⟨hlo, hk, ‹_›, hm⟩

theorem wfFrom_writeCell {lo k : Nat} {v : Byte} {m : Memory} (hlo : lo ≤ k) (hk : k < Config.addrCount)
    (hm : wfFrom lo m = true) : wfFrom lo (writeCell m k v) = true := by
  induction m generalizing lo with
  | nil => exact wfFrom_consCell hlo hk rfl
  | cons c m ih =>
    obtain ⟨h1, h2, h3, h4⟩ := wfFrom_cons.1 hm
    simp only [writeCell]
    split
    · exact wfFrom_consCell hlo hk (wfFrom_cons.2 ⟨by omega, h2, h3, h4⟩)
    · split
      · next he =>
        subst he
        exact wfFrom_consCell hlo hk h4
      · exact wfFrom_cons.2 ⟨h1, h2, h3, ih (by omega) h4⟩

/-- Every write to memory keeps the canonical form. -/
theorem placeByte_wf {m : Memory} (hm : m.wf = true) (a : Addr) (v : Byte) : (placeByte m a v).wf = true :=
  wfFrom_writeCell (Nat.zero_le _) a.isLt hm

theorem placeWord_wf {m : Memory} (hm : m.wf = true) (a : Addr) (w : InstrWord) :
    (placeWord m a w).wf = true :=
  placeByte_wf (placeByte_wf (placeByte_wf (placeByte_wf hm _ _) _ _) _ _) _ _

theorem reset_mem_wf : State.reset.mem.wf = true := rfl

theorem readCell_consCell {k j : Nat} {v : Byte} {m : Memory} (hm : wfFrom (k + 1) m = true) :
    readCell (consCell k v m) j = if k = j then v else readCell m j := by
  unfold consCell
  split
  · next hv =>
    split
    · next hj =>
      rw [hv]
      exact readCell_below hm (by omega)
    · rfl
  · rfl

theorem readCell_writeCell {lo k j : Nat} {v : Byte} {m : Memory} (hm : wfFrom lo m = true) :
    readCell (writeCell m k v) j = if k = j then v else readCell m j := by
  induction m generalizing lo with
  | nil => exact readCell_consCell rfl
  | cons c m ih =>
    obtain ⟨h1, h2, h3, h4⟩ := wfFrom_cons.1 hm
    simp only [writeCell]
    split
    · exact readCell_consCell (wfFrom_cons.2 ⟨by omega, h2, h3, h4⟩)
    · split
      · next he =>
        subst he
        rw [readCell_consCell h4]
        by_cases hj : c.1 = j <;> simp [readCell, hj]
      · simp only [readCell, ih h4]
        split
        · next hc =>
          have hkj : k ≠ j := by omega
          simp [hkj]
        · rfl

/-- A read after a write: the byte written at its address, every other byte as before. -/
theorem readCell_placeByte {m : Memory} (hm : m.wf = true) (a b : Addr) (v : Byte) :
    readCell (placeByte m a v) b.toNat = if a = b then v else readCell m b.toNat := by
  rw [placeByte, readCell_writeCell hm]
  simp only [BitVec.toNat_inj]

end Sys2Proof.Machine
end

