-- ==== Sys2Proof/Laws/PerInstr.lean ====
section
/-! SUPPORT. The families of statements made per instruction (LAWS.json). EncodedFields: the word of an instruction,
as a number, is the sum of its fields at the places of spec/30_encoding.md R42, R43 and R46. -/

namespace Sys2Proof.Laws.EncodedFields

/-- The number of an instruction's word (the assembly formulas of spec/95_test_vectors.md 2.1). -/
def Statement : Instr → Prop
  | .lbz rt ra d =>
    (encode (.lbz rt ra d)).toNat = 34 * 2 ^ 26 + rt.val * 2 ^ 21 + ra.val * 2 ^ 16 + d.toNat
  | .lbzu rt ra d =>
    (encode (.lbzu rt ra d)).toNat = 35 * 2 ^ 26 + rt.val * 2 ^ 21 + ra.val * 2 ^ 16 + d.toNat
  | .lbzx rt ra rb =>
    (encode (.lbzx rt ra rb)).toNat =
      31 * 2 ^ 26 + rt.val * 2 ^ 21 + ra.val * 2 ^ 16 + rb.val * 2 ^ 11 + 87 * 2
  | .lbzux rt ra rb =>
    (encode (.lbzux rt ra rb)).toNat =
      31 * 2 ^ 26 + rt.val * 2 ^ 21 + ra.val * 2 ^ 16 + rb.val * 2 ^ 11 + 119 * 2

theorem lbz (rt ra : Reg) (d : Disp) : Statement (.lbz rt ra d) :=
  encodeD_toNat 34 rt ra d

theorem lbzu (rt ra : Reg) (d : Disp) : Statement (.lbzu rt ra d) :=
  encodeD_toNat 35 rt ra d

theorem lbzx (rt ra rb : Reg) : Statement (.lbzx rt ra rb) :=
  encodeX_toNat 31 rt ra rb 87 0

theorem lbzux (rt ra rb : Reg) : Statement (.lbzux rt ra rb) :=
  encodeX_toNat 31 rt ra rb 119 0

end Sys2Proof.Laws.EncodedFields
end

