-- ==== Sys2Proof/Laws/Run.lean ====
section
/-! SUPPORT. Runs of several steps: one step more, and the induction over a run, packaged once. -/

namespace Sys2Proof.Machine

theorem runSteps_zero (s : State) : runSteps 0 s = .next s := rfl

theorem runSteps_succ_of_next {s u : State} (h : step s = .next u) (n : Nat) :
    runSteps (n + 1) s = runSteps n u := by
  have h' : Host.Core.step Sys2Proof.core s = .next u := h
  simp only [runSteps, Host.Core.run, h']
  rfl

theorem runSteps_succ_of_fault {s : State} {f : Fault} (h : step s = .fault f) (n : Nat) :
    runSteps (n + 1) s = .fault f := by
  have h' : Host.Core.step Sys2Proof.core s = .fault f := h
  simp only [runSteps, Host.Core.run, h']
  rfl

theorem runSteps_succ_of_refused {s : State} {r : Refusal} (h : step s = .refused r) (n : Nat) :
    runSteps (n + 1) s = .refused r := by
  have h' : Host.Core.step Sys2Proof.core s = .refused r := h
  simp only [runSteps, Host.Core.run, h']
  rfl

/-- What holds of every state and itself, and is carried back over a step, holds along every run. -/
theorem runSteps_induct {P : Nat → State → State → Prop} (zero : ∀ s, P 0 s s)
    (succ : ∀ n s u t, step s = .next u → P n u t → P (n + 1) s t) :
    ∀ n s t, runSteps n s = .next t → P n s t := by
  intro n
  induction n with
  | zero =>
    intro s t h
    cases h
    exact zero s
  | succ n ih =>
    intro s t h
    cases hst : step s with
    | next u =>
      rw [runSteps_succ_of_next hst] at h
      exact succ n s u t hst (ih u t h)
    | fault f =>
      rw [runSteps_succ_of_fault hst] at h
      cases h
    | refused r =>
      rw [runSteps_succ_of_refused hst] at h
      cases h

end Sys2Proof.Machine
end

