-- ==== Sys2Proof/Tests/Slice0.lean ====
section
/-! SUPPORT. The model's own tests: ill-formed terms the check refuses, words written out from the spec's encodings,
one step of each instruction on the vectors of spec/95_test_vectors.md, and for every statement with hypotheses a
concrete state that meets them. Expected values are the spec's, cited by vector. -/

namespace Sys2Proof.Tests

open Sys2Proof Sys2Proof.Machine

/-! ### Helpers -/

/-- A state with these registers, these bytes and this word at `pc`; everything admitted, all else as at reset. -/
def mk (pc : Addr) (regs : List (Reg × Word)) (bytes : List (Addr × Byte)) (w : InstrWord) : State :=
  let s := regs.foldl (fun s c => writeGpr s c.1 c.2) (setPc State.reset pc)
  { s with mem := placeWord (bytes.foldl (fun m c => placeByte m c.1 c.2) []) pc w }

/-- The outcome is a next state with these registers and this `pc`. -/
def answers (o : Host.Outcome State Fault Refusal) (regs : List (Reg × Word)) (pc : Addr) : Bool :=
  match o with
  | .next t => regs.all (fun c => readGpr t c.1 == c.2) && t.pc == pc
  | .fault _ => false
  | .refused _ => false

/-- The outcome is this refusal. -/
def refuses (o : Host.Outcome State Fault Refusal) (r : Refusal) : Bool :=
  match o with
  | .next _ => false
  | .fault _ => false
  | .refused r' => r' == r

theorem next_of_answers {o : Host.Outcome State Fault Refusal} {regs : List (Reg × Word)} {pc : Addr}
    (h : answers o regs pc = true) : ∃ t, o = .next t := by
  cases o with
  | next t => exact ⟨t, rfl⟩
  | fault f => cases h
  | refused r => cases h

/-! ### WellFormed: each check refuses an ill-formed term -/

/-- 95_test_vectors X4 to X7. -/
theorem test_wellFormed_refuses_lbzu :
    (Instr.lbzu 31 0 0xFFFF).wellFormed = false ∧ (Instr.lbzu 4 4 1).wellFormed = false := by decide

/-- 95_test_vectors X9, X10. -/
theorem test_wellFormed_refuses_lbzux :
    (Instr.lbzux 3 0 5).wellFormed = false ∧ (Instr.lbzux 4 4 5).wellFormed = false := by decide

/-- What R50 names as no invalid form: `RA = 0`, `RA = RT` in `lbz`, `lbzx`; `RB = RA`, `RB = RT`, `RT = 0`. -/
theorem test_wellFormed_keeps :
    (Instr.lbz 3 0 0).wellFormed ∧ (Instr.lbzx 31 31 31).wellFormed ∧ (Instr.lbzux 10 11 11).wellFormed ∧
      (Instr.lbzux 5 6 5).wellFormed ∧ (Instr.lbzu 0 31 4).wellFormed := by decide

/-! ### Decoding and encoding: words written out from the formats -/

/-- Bit by bit from R42: OPCD 100010, RT 00101, RA 00100, D 1111111111111111 (E2). -/
theorem test_decode_lbz_bits :
    decode 0b10001000101001001111111111111111 = .ok (.lbz 5 4 0xFFFF) := by decide

/-- Bit by bit from R42: OPCD 100011, RT 00101, RA 00100, D 0000000000000001 (E8). -/
theorem test_decode_lbzu_bits :
    decode 0b10001100101001000000000000000001 = .ok (.lbzu 5 4 1) := by decide

/-- Bit by bit from R43: OPCD 011111, RT 00011, RA 00100, RB 00101, XO 0001010111, Rc 0 (E11). -/
theorem test_decode_lbzx_bits :
    decode 0b01111100011001000010100010101110 = .ok (.lbzx 3 4 5) := by decide

/-- Bit by bit from R43: OPCD 011111, RT 00011, RA 00100, RB 00101, XO 0001110111, Rc 0 (E16). -/
theorem test_decode_lbzux_bits :
    decode 0b01111100011001000010100011101110 = .ok (.lbzux 3 4 5) := by decide

/-- E1, E3, E7, E10, E13, E15, E17, E19: the words of the assembly vectors. -/
theorem test_encode_vectors :
    encode (.lbz 3 0 0x4000) = 0x88604000 ∧ encode (.lbz 31 31 0x7FFF) = 0x8BFF7FFF ∧
    encode (.lbz 0 5 0) = 0x88050000 ∧ encode (.lbzu 0 31 4) = 0x8C1F0004 ∧
    encode (.lbzx 5 6 5) = 0x7CA628AE ∧ encode (.lbzx 3 4 0) = 0x7C6400AE ∧
    encode (.lbzux 10 11 11) = 0x7D4B58EE ∧ encode (.lbzux 5 6 5) = 0x7CA628EE := by decide

/-- X11 to X19: words that are refused. -/
theorem test_decode_refuses :
    ([0x7C6428AF, 0x7C6428EF, 0x7C0000AF, 0x7C0000EF, 0x7C0000AC, 0x7C00006E, 0x7C0002AE, 0x00000000, 0xFFFFFFFF,
      0x80000000, 0x84000000, 0x90000000] : List InstrWord).all
      (fun w => decode w == .error .unknownEncoding) = true := by decide

/-- The bytes `88 60 40 00` at ascending addresses are `lbz r3, 0x4000(0)` (R30). -/
theorem test_decodeBytes_bigEndian : decodeBytes 0x88 0x60 0x40 0x00 = .ok (.lbz 3 0 0x4000) := by decide

/-- The table's rows, operand bits zero. -/
theorem test_decodeTableWord :
    decodeTableWord 32 0x88000000 = some (.lbz 0 0 0) ∧ decodeTableWord 32 0x8C000000 = some (.lbzu 0 0 0) ∧
    decodeTableWord 32 0x7C0000AE = some (.lbzx 0 0 0) ∧ decodeTableWord 32 0x7C0000EE = some (.lbzux 0 0 0) ∧
    decodeTableWord 32 0x7C0000AF = none := by decide

/-- `lbz r5, -1(r4)` and `lbzx r3, 0, r5` (E2, E12) as text; an invalid form and a displacement out of range are
rejected (R55). -/
theorem test_assembly :
    asmText (.lbz 5 4 0xFFFF) =
      [.mnemonic .lbz, .reg 5, .comma, .num (-1), .lpar, .reg 4, .rpar] ∧
    parseAsm [.mnemonic .lbzx, .reg 3, .comma, .num 0, .comma, .reg 5] = some (.lbzx 3 0 5) ∧
    parseAsm [.mnemonic .lbzu, .reg 4, .comma, .num 1, .lpar, .reg 4, .rpar] = none ∧
    parseAsm [.mnemonic .lbz, .reg 4, .comma, .num 32768, .lpar, .reg 5, .rpar] = none := by decide

/-! ### One step of each instruction -/

/-- V-lbz-2: field 0 as base is the constant 0, not `r0`; the old `RT` is fully replaced. -/
theorem test_lbz_zero_base :
    answers (step (mk 0x100 [(0, 0x1234), (3, 0xFFFFFFFFFFFFFFFF)] [(0x4000, 0x5C)] 0x88604000))
      [(3, 0x5C), (0, 0x1234)] 0x104 = true := by decide

/-- V-lbz-9: the 64-bit sum wraps to 0. -/
theorem test_lbz_wraps :
    answers (step (mk 0x100 [(4, 0xFFFFFFFFFFFFFFFF)] [(0, 0x66)] 0x88640001))
      [(3, 0x66), (4, 0xFFFFFFFFFFFFFFFF)] 0x104 = true := by decide

/-- V-lbzu-3: `RA` receives the truncated address, not the 64-bit sum. -/
theorem test_lbzu_truncates :
    answers (step (mk 0x100 [(4, 0xFFFFFFFF00001000)] [(0x1001, 0x02)] 0x8CA40001))
      [(5, 0x02), (4, 0x1001)] 0x104 = true := by decide

/-- V-lbzu-4: wrap below zero leaves 0xFFFFFFFF in `RA`, not −1. -/
theorem test_lbzu_below_zero :
    answers (step (mk 0x100 [(4, 0)] [(0xFFFFFFFF, 0x03)] 0x8CA4FFFF))
      [(5, 0x03), (4, 0x00000000FFFFFFFF)] 0x104 = true := by decide

/-- V-lbzx-3: `RB` field 0 is `r0` itself. -/
theorem test_lbzx_index_r0 :
    answers (step (mk 0x100 [(4, 0x2000), (0, 8)] [(0x2008, 0x13)] 0x7C6400AE)) [(3, 0x13)] 0x104 = true := by
  decide

/-- V-lbzx-7: all three fields one register; the index and base are read before `RT` is written. -/
theorem test_lbzx_all_same :
    answers (step (mk 0x100 [(31, 0x1800)] [(0x3000, 0x17)] 0x7FFFF8AE)) [(31, 0x17)] 0x104 = true := by decide

/-- V-lbzux-1: a negative index. -/
theorem test_lbzux_negative_index :
    answers (step (mk 0x100 [(4, 0x2000), (5, 0xFFFFFFFFFFFFFFFF)] [(0x1FFF, 0x01)] 0x7C6428EE))
      [(3, 0x01), (4, 0x1FFF), (5, 0xFFFFFFFFFFFFFFFF)] 0x104 = true := by decide

/-- V-lbzux-3: `RT = RB`. -/
theorem test_lbzux_rt_is_rb :
    answers (step (mk 0x100 [(6, 0x2000), (5, 0x30)] [(0x2030, 0x22)] 0x7CA628EE))
      [(5, 0x22), (6, 0x2030)] 0x104 = true := by decide

/-! ### The refusals of 95_test_vectors 2.7, and the end of a run -/

/-- Fetch admitted for 0x100 to 0x102 only (F2). -/
def fetchHole : State :=
  { mk 0x100 [] [] 0x88640000 with memMap := [⟨.fetch, 0x100, 0x102⟩, ⟨.data, 0, 0xFFFFFFFF⟩] }

/-- Every fetch admitted, data at 0x2000 only. -/
def dataHole (pc : Addr) (r4 : Word) (w : InstrWord) : State :=
  { mk pc [(4, r4)] [] w with memMap := [⟨.fetch, 0, 0xFFFFFFFF⟩, ⟨.data, 0x2000, 0x2000⟩], endPc := 0 }

/-- F1, F2, F3, F4, F5. -/
theorem test_refusals :
    refuses (step (setPc State.reset 0x102)) .pcMisaligned ∧ refuses (step fetchHole) .fetchNotAdmitted ∧
    refuses (step (mk 0x100 [] [] 0x60000000)) .unknownEncoding ∧
    refuses (step (mk 0x100 [] [] 0x8C840001)) .invalidForm ∧
    refuses (step (dataHole 0x100 0x9000 0x88640000)) .dataNotAdmitted := by decide

/-- F6, F8, F9, F10: the top of the address space and the priorities. -/
theorem test_refusal_priority :
    refuses (step (dataHole 0xFFFFFFFC 0x2000 0x88640000)) .pcOverflow ∧
    refuses (step (dataHole 0x100 0x9000 0x8C840001)) .invalidForm ∧
    refuses (step (dataHole 0xFFFFFFFC 0x9000 0x88640000)) .dataNotAdmitted ∧
    refuses (step (dataHole 0xFFFFFFFC 0x9000 0x60000000)) .unknownEncoding := by decide

/-- F11: at `pc = end_pc` no step is taken. -/
theorem test_run_complete : runComplete { mk 0x100 [] [] 0x88640000 with endPc := 0x100 } = true := by decide

/-- From reset with nothing placed, the first step fetches the word 0 and is refused. -/
theorem test_reset_step : refuses (step State.reset) .unknownEncoding = true := by decide

/-- From reset, a launched word is what the next step runs: `lbzx r0, 0, r0` loads byte 0, its own first byte 0x7C. -/
theorem test_withFetchWord :
    answers (step (State.reset.withFetchWord 32 0x7C0000AE)) [(0, 0x7C)] 4 = true := by decide

/-! ### Witnesses: for each statement with hypotheses, a state that meets them -/

/-- `lbz r3, 0(r4)` at 0x100 over the byte 0x41 at 0x2000. -/
def good : State := mk 0x100 [(4, 0x2000)] [(0x2000, 0x41)] 0x88640000

theorem good_admits (k : AccessKind) (a : Addr) : admits good k a = true := by
  have h0 : (0 : Addr) ≤ a := BitVec.le_def.2 (Nat.zero_le _)
  have h1 : a ≤ (0xFFFFFFFF : Addr) := BitVec.le_def.2 (by have := a.isLt; simp; omega)
  have hm : good.memMap = [⟨.fetch, 0, 0xFFFFFFFF⟩, ⟨.data, 0, 0xFFFFFFFF⟩] := rfl
  simp only [admits, hm, List.any_cons, regionAdmits, decide_eq_true h0, decide_eq_true h1]
  cases k <;> rfl

theorem witness_EncodeOfDecode : decode 0x8BFFFFFF = .ok (.lbz 31 31 0xFFFF) := by decide

/-- A word for each clause, the neighbour 0x90000000 for the last. -/
theorem witness_DecodeReadsTheFields :
    (0x88A4FFFF : InstrWord).toNat / 2 ^ 26 = 34 ∧ (0x8FFFFFFF : InstrWord).toNat / 2 ^ 26 = 35 ∧
    ((0x7C6428AE : InstrWord).toNat / 2 ^ 26 = 31 ∧ (0x7C6428AE : InstrWord).toNat % 2 ^ 11 = 0x0AE) ∧
    ((0x7C6428EE : InstrWord).toNat / 2 ^ 26 = 31 ∧ (0x7C6428EE : InstrWord).toNat % 2 ^ 11 = 0x0EE) ∧
    (0x90000000 : InstrWord).toNat / 2 ^ 26 = 36 := by decide

theorem witness_UnmatchedWordRefused :
    (mk 0x100 [] [] 0x7C6428AF).pc ≠ (mk 0x100 [] [] 0x7C6428AF).endPc ∧
    fetch (mk 0x100 [] [] 0x7C6428AF) = .ok 0x7C6428AF ∧
    opcodeMap.all (fun row => !row.matchesWord 0x7C6428AF) = true ∧
    ((0x7C6428AF : InstrWord).toNat / 2 ^ 26 = 31 ∧ (0x7C6428AF : InstrWord).toNat / 2 % 2 ^ 10 = 87 ∧
      (0x7C6428AF : InstrWord).toNat % 2 = 1) := by decide

theorem witness_DisplacementIsSigned :
    decode 0x88698000 = .ok (.lbz 3 9 0x8000) ∧ decode 0x8CC7FFFE = .ok (.lbzu 6 7 0xFFFE) := by decide

/-- `lbz r0, 0(r5)` completes (V-lbz-7). -/
theorem witness_NoRegisterIsHardwired :
    (Instr.lbz 0 5 0).rt = 0 ∧ answers (exec (.lbz 0 5 0) (mk 0x100 [(5, 0x2000)] [(0x2000, 0x44)] 0))
      [(0, 0x44)] 0x104 = true := by decide

theorem witness_MemoryIsItsBytes :
    Memory.wf [(0, 1), (0xFFFFFFFF, 255)] = true ∧ Memory.wf (placeByte [(0xFFFFFFFF, 255)] 0 1) = true ∧
    placeByte [(0xFFFFFFFF, 255)] 0 1 = [(0, 1), (0xFFFFFFFF, 255)] := by decide

/-- A fetch at the highest `pc`. -/
theorem witness_FetchIsBigEndian :
    fetch (mk 0xFFFFFFFC [] [] 0x88604000) = .ok 0x88604000 := by decide

/-- The lowest and the highest multiple of 4. -/
theorem witness_PlacedWordReadsBack :
    good.mem.wf = true ∧ (0 : Addr).toNat % 4 = 0 ∧ (0xFFFFFFFC : Addr).toNat % 4 = 0 := by decide

/-- Admitted and not admitted, at the lowest address of a hole. -/
theorem witness_LbzLoadsTheByte :
    (0x88A4FFFF : InstrWord) &&& 0xFC000000 = 0x88000000 ∧
    admits (dataHole 0xFFFFFFF8 0x2000 0) .data 0x2000 = true ∧
    (dataHole 0xFFFFFFF8 0x2000 0).pc.toNat + 4 < 2 ^ 32 ∧
    admits (dataHole 0xFFFFFFF8 0x2000 0) .data 0x2001 = false ∧
    instrEa (dataHole 0xFFFFFFF8 0x2000 0) (.lbz 3 4 1) = 0x2001 := by decide

theorem witness_LbzuLoadsAndUpdates :
    (0x8CA40001 : InstrWord) &&& 0xFC000000 = 0x8C000000 ∧ (4 : Reg) ≠ 0 ∧ (4 : Reg) ≠ 5 ∧
    admits good .data 0x2001 = true ∧ good.pc.toNat + 4 < 2 ^ 32 ∧
    refuses (exec (.lbzu 5 4 1) (dataHole 0x100 0x2000 0)) .dataNotAdmitted ∧
    refuses (exec (.lbzu 5 0 1) good) .invalidForm ∧ refuses (exec (.lbzu 4 4 1) good) .invalidForm := by decide

theorem witness_LbzxLoadsTheByte :
    (0x7C6428AE : InstrWord) &&& 0xFC0007FF = 0x7C0000AE ∧ admits good .data 0x2000 = true ∧
    good.pc.toNat + 4 < 2 ^ 32 ∧ refuses (exec (.lbzx 3 4 4) (dataHole 0x100 0x2000 0)) .dataNotAdmitted := by decide

theorem witness_LbzuxLoadsAndUpdates :
    (0x7C6428EE : InstrWord) &&& 0xFC0007FF = 0x7C0000EE ∧ (4 : Reg) ≠ 0 ∧ (4 : Reg) ≠ 3 ∧
    admits good .data 0x2000 = true ∧ good.pc.toNat + 4 < 2 ^ 32 ∧
    refuses (exec (.lbzux 3 4 4) (dataHole 0x100 0x2000 0)) .dataNotAdmitted ∧
    refuses (exec (.lbzux 5 0 1) good) .invalidForm ∧ refuses (exec (.lbzux 4 4 1) good) .invalidForm := by decide

theorem witness_BaseOperandRule : (1 : Reg) ≠ 0 ∧ (31 : Reg) ≠ 0 := by decide

/-- Each of the four forms, the carry out of bit 63 among them. -/
theorem witness_EffectiveAddressIsLow32 :
    instrEa (mk 0x100 [(4, 0xFFFFFFFFFFFFFFFF)] [] 0) (.lbz 3 4 1) = 0 ∧
    instrEa (mk 0x100 [(4, 0)] [] 0) (.lbzu 3 4 0xFFFF) = 0xFFFFFFFF ∧
    instrEa (mk 0x100 [(4, 0x80001000)] [] 0) (.lbzx 3 4 4) = 0x2000 ∧
    instrEa (mk 0x100 [(11, 0x0000000180000800)] [] 0) (.lbzux 10 11 11) = 0x1000 := by decide

/-- Every instruction completes: the hypothesis of LoadedValueIsZeroExtended, UpdateWritesEffectiveAddress,
InstructionFrame, StatusNeitherReadNorWritten, PcAdvancesByFour, ExecCompletesExactly and PositionIndependent. -/
theorem witness_exec_next :
    answers (exec (.lbz 3 4 0) good) [(3, 0x41)] 0x104 ∧ answers (exec (.lbzu 3 4 0) good) [(3, 0x41)] 0x104 ∧
    answers (exec (.lbzx 3 4 0) good) [(3, 0x41)] 0x104 ∧ answers (exec (.lbzux 3 4 0) good) [(3, 0x41)] 0x104 := by
  decide

/-- The second clause of StatusNeitherReadNorWritten: a refusal. -/
theorem witness_StatusNeitherReadNorWritten : refuses (exec (.lbzu 4 4 1) good) .invalidForm = true := by decide

/-- The highest `pc` that advances, and the one that overflows. -/
theorem witness_PcAdvancesByFour :
    answers (exec (.lbz 3 4 0) (dataHole 0xFFFFFFF8 0x2000 0)) [] 0xFFFFFFFC ∧
    (Instr.lbz 3 4 0).wellFormed = true ∧
    admits (dataHole 0xFFFFFFFC 0x2000 0) .data (instrEa (dataHole 0xFFFFFFFC 0x2000 0) (.lbz 3 4 0)) = true ∧
    refuses (exec (.lbz 3 4 0) (dataHole 0xFFFFFFFC 0x2000 0)) .pcOverflow ∧
    (0xFFFFFFFC : Addr).toNat % 4 = 0 := by decide

theorem witness_UpdateWritesEffectiveAddress :
    answers (exec (.lbz 3 4 0) good) [(4, 0x2000)] 0x104 ∧ (4 : Reg) ≠ 3 := by decide

theorem witness_ExecCompletesExactly :
    Executable (.lbz 3 4 0) good ∧ ¬Executable (.lbzu 4 4 0) good :=
  ⟨⟨rfl, good_admits _ _, by decide⟩, fun h => Bool.false_ne_true h.1⟩

/-- Two states that differ in a register the instruction does not read. -/
theorem witness_OnlyOperandsMatter :
    (gprReads (.lbz 3 4 0)).all (fun r => readGpr (writeGpr good 9 7) r == readGpr good r) = true ∧
    readByte (writeGpr good 9 7) 0x2000 = readByte good 0x2000 ∧ (writeGpr good 9 7).memMap = good.memMap ∧
    (writeGpr good 9 7).pc = good.pc ∧ readGpr (writeGpr good 9 7) 9 ≠ readGpr good 9 := by decide

/-- Two states that differ in the high half of the base. -/
theorem witness_HighHalvesIgnored :
    SameButGpr good (writeGpr good 4 0xFFFFFFFF00002000) ∧
    (∀ r : Reg, (readGpr (writeGpr good 4 0xFFFFFFFF00002000) r).toNat % 2 ^ 32 =
      (readGpr good r).toNat % 2 ^ 32) ∧
    answers (exec (.lbz 3 4 0) (writeGpr good 4 0xFFFFFFFF00002000)) [(3, 0x41)] 0x104 :=
  ⟨⟨rfl, rfl, rfl, rfl, rfl⟩, by decide, by decide⟩

theorem witness_PositionIndependent : (0xFFFFFFF8 : Addr).toNat + 4 < 2 ^ 32 := by decide

theorem witness_IndexedEqualsDisplacement :
    readGpr (mk 0x100 [(5, 0xFFFFFFFFFFFF8000)] [] 0) 5 = (0x8000 : Disp).signExtend 64 := by decide

theorem witness_StepRunsDecodedInstr :
    good.pc ≠ good.endPc ∧ good.pc.toNat % 4 = 0 ∧
    (∀ k : Fin 4, admits good .fetch (good.pc + BitVec.ofNat 32 k.val) = true) ∧
    decodeBytes (readByte good good.pc) (readByte good (good.pc + 1)) (readByte good (good.pc + 2))
      (readByte good (good.pc + 3)) = .ok (.lbz 3 4 0) ∧ (Instr.lbz 3 4 0).wellFormed = true :=
  ⟨by decide, by decide, fun _ => good_admits _ _, by decide, rfl⟩

/-- A state for each clause, in order (F1, F2, F3, F4, F5, F6, V-lbz). -/
theorem witness_RefusalPriority :
    (setPc State.reset 0x102).pc ≠ (setPc State.reset 0x102).endPc ∧ (setPc State.reset 0x102).pc.toNat % 4 ≠ 0 ∧
    (fetchHole.pc ≠ fetchHole.endPc ∧ fetchHole.pc.toNat % 4 = 0 ∧
      ∃ k : Fin 4, admits fetchHole .fetch (fetchHole.pc + BitVec.ofNat 32 k.val) = false) ∧
    decode (wordAt (mk 0x100 [] [] 0x60000000) 0x100) = .error .unknownEncoding ∧
    decode (wordAt (mk 0x100 [] [] 0x8C840001) 0x100) = .ok (.lbzu 4 4 1) ∧
    (decode (wordAt (dataHole 0x100 0x9000 0x88640000) 0x100) = .ok (.lbz 3 4 0) ∧
      admits (dataHole 0x100 0x9000 0x88640000) .data 0x9000 = false) ∧
    (decode (wordAt (dataHole 0xFFFFFFFC 0x2000 0x88640000) 0xFFFFFFFC) = .ok (.lbz 3 4 0) ∧
      admits (dataHole 0xFFFFFFFC 0x2000 0x88640000) .data 0x2000 = true ∧
      2 ^ 32 ≤ (dataHole 0xFFFFFFFC 0x2000 0x88640000).pc.toNat + 4) ∧
    (decode (wordAt good 0x100) = .ok (.lbz 3 4 0) ∧ admits good .data 0x2000 = true ∧
      good.pc.toNat + 4 < 2 ^ 32) := by decide

theorem witness_LaunchedWordRuns :
    good.mem.wf = true ∧ decodeTableWord 32 0x8CA40001 = some (.lbzu 5 4 1) := by decide

/-- The invariant holds at `good`, and its step answers a next state. -/
theorem witness_StepKeepsInvariant : MachineInv good ∧ ∃ t, step good = .next t :=
  ⟨⟨⟨by decide, by decide, by decide⟩, by decide⟩,
    next_of_answers (regs := [(3, 0x41)]) (pc := 0x104) (by decide)⟩

theorem witness_PcRefusalsUnreachable :
    ((setPc State.reset 0x102).pc ≠ (setPc State.reset 0x102).endPc ∧ (setPc State.reset 0x102).pc.toNat % 4 ≠ 0) ∧
    PcPremise good ∧ ∃ t, runSteps 1 good = .next t := by
  obtain ⟨hi, t, ht⟩ := witness_StepKeepsInvariant
  exact ⟨by decide, hi.1, t, by rw [runSteps_succ_of_next ht, runSteps_zero]⟩

theorem witness_MemoryConstantDuringRun : ∃ t, runSteps 1 good = .next t :=
  witness_PcRefusalsUnreachable.2.2

/-- `lbz r3, 0(r4)` then `lbzx r5, 0, r3`. -/
def chained : State :=
  { good with mem := placeWord good.mem 0x104 0x7CA018AE }

theorem witness_LoadUsesJustLoadedValue :
    decode (wordAt chained chained.pc) = .ok (.lbz 3 4 0) ∧
    ∃ t u, step chained = .next t ∧ decode (wordAt t t.pc) = .ok (.lbzx 5 0 3) ∧ step t = .next u := by
  obtain ⟨t, ht⟩ := next_of_answers (o := step chained) (regs := []) (pc := 0x104) (by decide)
  have key : (match step chained with
      | .next t => decide (decode (wordAt t t.pc) = .ok (.lbzx 5 0 3)) && answers (step t) [(3, 0x41)] 0x108
      | _ => false) = true := by decide
  rw [ht] at key
  simp only [Bool.and_eq_true, decide_eq_true_eq] at key
  obtain ⟨u, hu⟩ := next_of_answers key.2
  exact ⟨by decide, t, u, ht, key.1, hu⟩

/-- A program of one instruction. -/
def oneInstr : State := { good with endPc := 0x104 }

theorem witness_RunEndsAtEndPc : PcPremise oneInstr ∧ stepsLeft oneInstr = 1 := by
  exact ⟨⟨by decide, by decide, by decide⟩, by decide⟩

theorem witness_LaunchPremisesKept : LaunchPremises oneInstr := by
  refine ⟨witness_RunEndsAtEndPc.1, fun a _ _ => good_admits _ a, fun a h4 h1 h2 => ?_⟩
  have e1 : oneInstr.pc.toNat = 0x100 := by decide
  have e2 : oneInstr.endPc.toNat = 0x104 := by decide
  have ha : a = 0x100 := BitVec.eq_of_toNat_eq (by simp; omega)
  subst ha
  exact ⟨.lbz 3 4 0, by decide, rfl⟩

theorem witness_LaunchedRunCompletes : LaunchPremises oneInstr ∧ DataPremise oneInstr := by
  refine ⟨witness_LaunchPremisesKept, fun n t i h _ _ => ?_⟩
  have hm : ∀ n s t, runSteps n s = .next t → (∀ k a, admits s k a = true) → ∀ k a, admits t k a = true :=
    runSteps_induct (fun _ h => h) fun n s u t hu ih hs => by
      refine ih fun k a => ?_
      rcases step_cases s with ⟨_, e⟩ | ⟨_, _, _, e⟩ | ⟨_, _, _, _, e⟩ | ⟨_, _, j, _, _, e⟩
      · rw [e] at hu
        cases hu
      · rw [e] at hu
        cases hu
      · rw [e] at hu
        cases hu
      · rw [e] at hu
        rw [admits_congr (exec_memMap hu)]
        exact hs k a
  exact hm n oneInstr t h good_admits .data _

end Sys2Proof.Tests
end

/-! PROOFS. Family 10_state: one equation and one inversion for `exec`, what `exec` writes to `RT`, and the two
statements on registers (R14) and on the named-only registers (R19). -/

namespace Sys2Proof.Machine

/-! ### What an instruction does, said once -/

/-- The register an update form writes its effective address to (R60); none for the other two forms. -/
def updateReg : Instr → Option Reg
  | .lbz _ _ _ => none
  | .lbzu _ ra _ => some ra
  | .lbzx _ _ _ => none
  | .lbzux _ ra _ => some ra

/-- All four meanings are one: the check for an invalid form, then the shared load. -/
theorem exec_eq_loadByteZero (i : Instr) (s : State) :
    exec i s = if i.invalidForm = true then .refused .invalidForm
      else loadByteZero i.rt (instrEa s i) (updateReg i) s := by
  cases i <;> rfl

/-- When an instruction answers a next state, and which. -/
theorem exec_eq_next_iff (i : Instr) (s t : State) :
    exec i s = .next t ↔ i.invalidForm = false ∧ admits s .data (instrEa s i) = true ∧
      s.pc.toNat + 4 < 2 ^ 32 ∧ t = loadWrites i.rt (instrEa s i) (updateReg i) s := by
  rw [exec_eq_loadByteZero]
  cases i.invalidForm with
  | true => simp
  | false => simpa using loadByteZero_eq_next_iff i.rt (instrEa s i) (updateReg i) s t

/-- The update register of a well-formed instruction is not its destination (R50). -/
theorem updateReg_ne_rt {i : Instr} (h : i.invalidForm = false) : updateReg i ≠ some i.rt := by
  cases i with
  | lbz rt ra d => exact nofun
  | lbzx rt ra rb => exact nofun
  | lbzu rt ra d => exact fun e => ((invalidUpdate_eq_false_iff rt ra).1 h).2 (Option.some.inj e)
  | lbzux rt ra rb => exact fun e => ((invalidUpdate_eq_false_iff rt ra).1 h).2 (Option.some.inj e)

theorem readGpr_loadWrites_rt {rt : Reg} {u : Option Reg} (h : u ≠ some rt) (ea : Addr) (s : State) :
    readGpr (loadWrites rt ea u s) rt = zextByte (readByte s ea) := by
  cases u with
  | none => rw [readGpr_loadWrites_none, if_pos rfl]
  | some ra =>
    have hne : rt ≠ ra := fun e => h (congrArg some e.symm)
    rw [readGpr_loadWrites_some, if_neg hne, if_pos rfl]

/-- R59 for all four: `RT`, whichever register it is, receives the byte at the effective address. -/
theorem readGpr_rt_of_exec_eq_next {i : Instr} {s t : State} (h : exec i s = .next t) :
    readGpr t i.rt = zextByte (readByte s (instrEa s i)) := by
  obtain ⟨hform, -, -, rfl⟩ := (exec_eq_next_iff i s t).1 h
  exact readGpr_loadWrites_rt (updateReg_ne_rt hform) _ s

/-! ### Registers and operand positions (R14) -/

theorem readGpr_writeGpr (s : State) (r r' : Reg) (v : Word) :
    readGpr (writeGpr s r v) r' = if r' = r then v else readGpr s r' := by
  split
  · next h => rw [h, readGpr_writeGpr_self]
  · next h => exact readGpr_writeGpr_of_ne s v h

@[simp] theorem base0_zero (s : State) : base0 s 0 = 0 := if_pos rfl

/-- An `RA0` operand never sees `r0`. -/
@[simp] theorem base0_writeGpr_zero (s : State) (ra : Reg) (v : Word) :
    base0 (writeGpr s 0 v) ra = base0 s ra := by
  unfold base0
  split
  · rfl
  · next h => exact readGpr_writeGpr_of_ne s v h

section InstrEa

variable (s : State) (rt ra rb : Reg) (d : Disp)

theorem instrEa_lbz : instrEa s (.lbz rt ra d) = (base0 s ra + sext64 d).setWidth 32 := rfl

theorem instrEa_lbzu : instrEa s (.lbzu rt ra d) = (readGpr s ra + sext64 d).setWidth 32 := rfl

theorem instrEa_lbzx : instrEa s (.lbzx rt ra rb) = (base0 s ra + readGpr s rb).setWidth 32 := rfl

theorem instrEa_lbzux : instrEa s (.lbzux rt ra rb) = (readGpr s ra + readGpr s rb).setWidth 32 := rfl

end InstrEa

/-- Settles O10: read after write, the operand positions one by one, and the destination of any instruction. -/
theorem noRegisterIsHardwired : Obligations.NoRegisterIsHardwired := by
  refine ⟨readGpr_writeGpr, fun s rt ra rb d v => ⟨?_, ?_, ?_, ?_, ?_, ?_⟩, fun s t i hrt h => ?_⟩
  · rw [instrEa_lbz, base0_zero, zero_add]
  · rw [instrEa_lbzx, base0_zero, zero_add]
  · rw [instrEa_lbzx, base0_writeGpr_zero, readGpr_writeGpr_self]
  · rw [instrEa_lbzu, readGpr_writeGpr_self]
  · rw [instrEa_lbzux, readGpr_writeGpr_self]
  · rw [instrEa_lbzux, readGpr_writeGpr_self]
  · have hval := readGpr_rt_of_exec_eq_next h
    rwa [hrt] at hval

/-! ### The named-only registers (R19) -/

/-- `s` with other values in the named-only registers. -/
def setNamed (n : NamedOnly) (s : State) : State :=
  { s with named := n }

/-- An outcome with its next state, if it has one, replaced by `f` of it; a stop stays as it is. -/
def mapNext (f : State → State) : Host.Outcome State Fault Refusal → Host.Outcome State Fault Refusal
  | .next t => .next (f t)
  | .fault e => .fault e
  | .refused r => .refused r

theorem instrEa_setNamed (n : NamedOnly) (i : Instr) (s : State) :
    instrEa (setNamed n s) i = instrEa s i := by
  cases i <;> rfl

theorem loadWrites_setNamed (n : NamedOnly) (rt : Reg) (ea : Addr) (u : Option Reg) (s : State) :
    loadWrites rt ea u (setNamed n s) = setNamed n (loadWrites rt ea u s) := by
  cases u <;> rfl

theorem loadByteZero_setNamed (n : NamedOnly) (rt : Reg) (ea : Addr) (u : Option Reg) (s : State) :
    loadByteZero rt ea u (setNamed n s) = mapNext (setNamed n) (loadByteZero rt ea u s) := by
  have hadmits : admits (setNamed n s) .data ea = admits s .data ea := rfl
  have hpc : pcOverflows (setNamed n s) = pcOverflows s := rfl
  unfold loadByteZero
  rw [hadmits, hpc, loadWrites_setNamed]
  split
  · rfl
  · split <;> rfl

/-- Executing commutes with replacing the named-only registers: no instruction reads or writes one. -/
theorem exec_setNamed (n : NamedOnly) (i : Instr) (s : State) :
    exec i (setNamed n s) = mapNext (setNamed n) (exec i s) := by
  rw [exec_eq_loadByteZero, exec_eq_loadByteZero, instrEa_setNamed, loadByteZero_setNamed]
  split <;> rfl

theorem named_of_exec_eq_next {i : Instr} {s t : State} (h : exec i s = .next t) : t.named = s.named := by
  obtain ⟨-, -, -, rfl⟩ := (exec_eq_next_iff i s t).1 h
  exact loadWrites_named _ _ _ s

/-- Settles O24: no load writes a named-only register, and `exec_setNamed` for both kinds of outcome. -/
theorem statusNeitherReadNorWritten : Obligations.StatusNeitherReadNorWritten := by
  intro i s n
  have hcomm : ∀ o, exec i s = o → exec i (setNamed n s) = mapNext (setNamed n) o :=
    fun o h => h ▸ exec_setNamed n i s
  exact ⟨fun t h => ⟨named_of_exec_eq_next h, hcomm _ h⟩, fun r h => hcomm _ h⟩

end Sys2Proof.Machine

/-! PROOFS. Family 30_encoding: the masks of the opcode map as arithmetic, the row that selects a word and the decoder's
answer for it, and the two statements on the opcode map (R46) and on the displacement (R44). -/

namespace Sys2Proof

/-! ### The masks of the opcode map (R46) -/

/-- A mask that keeps the six `OPCD` bits and the low `k` bits of a word, as arithmetic. -/
theorem toNat_and_mask {w mask : InstrWord} {k : Nat} (hk : k ≤ 26)
    (hhigh : mask.toNat / 2 ^ 26 = 2 ^ 6 - 1) (hlow : mask.toNat % 2 ^ 26 = 2 ^ k - 1) :
    (w &&& mask).toNat = w.toNat / 2 ^ 26 * 2 ^ 26 + w.toNat % 2 ^ k := by
  have hopcd : (w &&& mask).toNat / 2 ^ 26 = w.toNat / 2 ^ 26 := by
    have hw := w.isLt
    rw [BitVec.toNat_and, Nat.and_div_two_pow, hhigh, Nat.and_two_pow_sub_one_eq_mod]
    omega
  have hrest : (w &&& mask).toNat % 2 ^ 26 = w.toNat % 2 ^ k := by
    rw [BitVec.toNat_and, Nat.and_mod_two_pow, hlow, Nat.and_two_pow_sub_one_eq_mod,
      Nat.mod_mod_of_dvd _ (Nat.pow_dvd_pow 2 hk)]
  rw [← hopcd, ← hrest, Nat.div_add_mod']

/-- Form D: the mask leaves `OPCD`, and the pattern is the word with every operand field 0. -/
theorem and_maskD_eq_iff (w : InstrWord) (v : BitVec 6) :
    w &&& 0xFC000000 = encodeD v 0 0 0 ↔ opcdField w = v := by
  rw [← BitVec.toNat_inj, toNat_and_mask (k := 0) (by decide) rfl rfl, encodeD_toNat, opcdField_eq_iff]
  simp only [Fin.val_zero, BitVec.ofNat_eq_ofNat, BitVec.toNat_zero]
  omega

/-- Form X: the mask leaves `OPCD`, `XO` and `Rc`. -/
theorem and_maskX_eq_iff (w : InstrWord) (v : BitVec 6) (xo : BitVec 10) :
    w &&& 0xFC0007FF = encodeX v 0 0 0 xo 0 ↔ opcdField w = v ∧ xoField w = xo ∧ rcField w = 0 := by
  have hxo := xo.isLt
  rw [← BitVec.toNat_inj, toNat_and_mask (k := 11) (by decide) rfl rfl, encodeX_toNat, xoRc_eq_iff,
    opcdField_eq_iff]
  simp only [Fin.val_zero, BitVec.ofNat_eq_ofNat, BitVec.toNat_zero]
  omega

/-! ### What a row selects, and the decoder's answer for it -/

/-- The word has the field values of the mnemonic's row in R46. -/
def Selects (w : InstrWord) : Mnemonic → Prop
  | .lbz => opcdField w = 34
  | .lbzu => opcdField w = 35
  | .lbzx => opcdField w = 31 ∧ xoField w = 87 ∧ rcField w = 0
  | .lbzux => opcdField w = 31 ∧ xoField w = 119 ∧ rcField w = 0

/-- The instruction with this mnemonic whose operands are the fields of the word (R42, R43). -/
def instrOfFields (w : InstrWord) : Mnemonic → Instr
  | .lbz => .lbz (rtField w) (raField w) (dField w)
  | .lbzu => .lbzu (rtField w) (raField w) (dField w)
  | .lbzx => .lbzx (rtField w) (raField w) (rbField w)
  | .lbzux => .lbzux (rtField w) (raField w) (rbField w)

theorem instrOfFields_mnemonic (w : InstrWord) (m : Mnemonic) : (instrOfFields w m).mnemonic = m := by
  cases m <;> rfl

theorem decode_of_selects {w : InstrWord} {m : Mnemonic} (h : Selects w m) :
    decode w = .ok (instrOfFields w m) := by
  cases m with
  | lbz => exact if_pos h
  | lbzu =>
    have h : opcdField w = 35 := h
    simp [decode, instrOfFields, h]
  | lbzx =>
    obtain ⟨hopcd, hxo, hrc⟩ := h
    simp [decode, instrOfFields, hopcd, hxo, hrc]
  | lbzux =>
    obtain ⟨hopcd, hxo, hrc⟩ := h
    simp [decode, instrOfFields, hopcd, hxo, hrc]

/-- What a decoded instruction says of the word: the row that selects it, and the fields its operands are. -/
theorem decode_eq_ok_iff (w : InstrWord) (i : Instr) :
    decode w = .ok i ↔ Selects w i.mnemonic ∧ i = instrOfFields w i.mnemonic := by
  refine ⟨fun h => ?_, fun ⟨hsel, hi⟩ => (decode_of_selects hsel).trans (congrArg Except.ok hi.symm)⟩
  rcases decode_cases w with ⟨ho, e⟩ | ⟨ho, e⟩ | ⟨ho, hx, hr, e⟩ | ⟨ho, hx, hr, e⟩ | ⟨-, -, -, -, e⟩ <;>
    cases e.symm.trans h
  · exact ⟨ho, rfl⟩
  · exact ⟨ho, rfl⟩
  · exact ⟨⟨ho, hx, hr⟩, rfl⟩
  · exact ⟨⟨ho, hx, hr⟩, rfl⟩

theorem selects_of_decode {w : InstrWord} {i : Instr} (h : decode w = .ok i) : Selects w i.mnemonic :=
  ((decode_eq_ok_iff w i).1 h).1

theorem eq_instrOfFields_of_decode {w : InstrWord} {i : Instr} (h : decode w = .ok i) :
    i = instrOfFields w i.mnemonic :=
  ((decode_eq_ok_iff w i).1 h).2

/-- No two rows select one word (R46), since the decoder gives it one instruction. -/
theorem Selects.unique {w : InstrWord} {m m' : Mnemonic} (h : Selects w m) (h' : Selects w m') : m = m' := by
  have hi : instrOfFields w m = instrOfFields w m' :=
    Except.ok.inj ((decode_of_selects h).symm.trans (decode_of_selects h'))
  rw [← instrOfFields_mnemonic w m, hi, instrOfFields_mnemonic]

theorem matchesWord_iff_selects (w : InstrWord) {row : OpcodeRow} (h : row ∈ opcodeMap) :
    row.matchesWord w = true ↔ Selects w row.mnemonic := by
  rw [OpcodeRow.matchesWord, beq_iff_eq]
  fin_cases h
  · exact and_maskD_eq_iff w 34
  · exact and_maskD_eq_iff w 35
  · exact and_maskX_eq_iff w 31 87
  · exact and_maskX_eq_iff w 31 119

/-- Each mnemonic has at most one row in the opcode map. -/
theorem countP_mnemonic_opcodeMap (m : Mnemonic) :
    opcodeMap.countP (fun row => row.mnemonic = m) ≤ 1 := by
  cases m <;> decide

theorem length_filter_matchesWord_le_one (w : InstrWord) :
    (opcodeMap.filter (fun row => row.matchesWord w)).length ≤ 1 := by
  rw [← List.countP_eq_length_filter]
  by_cases h : ∃ m, Selects w m
  · obtain ⟨m, hm⟩ := h
    refine (List.countP_mono_left fun row hrow hmatch => ?_).trans (countP_mnemonic_opcodeMap m)
    exact decide_eq_true (((matchesWord_iff_selects w hrow).1 hmatch).unique hm)
  · have hnone : opcodeMap.countP (fun row => row.matchesWord w) = 0 :=
      List.countP_eq_zero.2 fun row hrow hmatch => h ⟨_, (matchesWord_iff_selects w hrow).1 hmatch⟩
    omega

/-- `XO` and `Rc` as the numbers of R43. -/
theorem xoField_rcField_iff_toNat (w : InstrWord) (xo : BitVec 10) :
    (xoField w = xo ∧ rcField w = 0) ↔ w.toNat / 2 % 2 ^ 10 = xo.toNat ∧ w.toNat % 2 = 0 := by
  rw [← BitVec.toNat_inj, xoField_toNat, ← BitVec.toNat_inj, rcField_toNat,
    BitVec.ofNat_eq_ofNat, BitVec.toNat_zero]

/-- Settles O3: each mask leaves exactly the fields of its row, those select the decoder's answer, and the decoder's
answer is one. -/
theorem opcodeMapSelectsExactly : Obligations.OpcodeMapSelectsExactly := by
  intro w
  have hlbz : w &&& 0xFC000000 = 0x88000000 ↔ Selects w .lbz := and_maskD_eq_iff w 34
  have hlbzu : w &&& 0xFC000000 = 0x8C000000 ↔ Selects w .lbzu := and_maskD_eq_iff w 35
  have hlbzx : w &&& 0xFC0007FF = 0x7C0000AE ↔ Selects w .lbzx := and_maskX_eq_iff w 31 87
  have hlbzux : w &&& 0xFC0007FF = 0x7C0000EE ↔ Selects w .lbzux := and_maskX_eq_iff w 31 119
  refine ⟨⟨hlbz.trans (opcdField_eq_34 w), hlbz.trans ?_⟩, ⟨hlbzu.trans (opcdField_eq_35 w), hlbzu.trans ?_⟩,
    ⟨hlbzx.trans (and_congr (opcdField_eq_31 w) (xoField_rcField_iff_toNat w 87)), hlbzx.trans ?_⟩,
    ⟨hlbzux.trans (and_congr (opcdField_eq_31 w) (xoField_rcField_iff_toNat w 119)), hlbzux.trans ?_⟩,
    length_filter_matchesWord_le_one w⟩
  all_goals exact ⟨fun h => ⟨_, _, _, decode_of_selects h⟩, fun ⟨_, _, _, h⟩ => selects_of_decode h⟩

/-! ### The displacement (R44) -/

/-- The displacement of a decoded D form is the `D` field of its word. -/
theorem disp_eq_dField_of_decode {w : InstrWord} {rt ra : Reg} {d : Disp}
    (h : decode w = .ok (.lbz rt ra d) ∨ decode w = .ok (.lbzu rt ra d)) : d = dField w := by
  rcases h with h | h
  · exact (Instr.lbz.inj (eq_instrOfFields_of_decode h)).2.2
  · exact (Instr.lbzu.inj (eq_instrOfFields_of_decode h)).2.2

/-- Settles O8: the field of the decoded word, its value kept by the extension, its place in the address. -/
theorem displacementIsSigned : Obligations.DisplacementIsSigned := by
  refine ⟨fun w rt ra d h => ?_, fun d => ⟨?_, d.le_toInt, ?_⟩,
    fun s rt ra d => ⟨Machine.instrEa_lbz s rt ra d, Machine.instrEa_lbzu s rt ra d⟩,
    by decide, by decide, by decide⟩
  · rw [disp_eq_dField_of_decode h, dField_toNat]
  · exact BitVec.toInt_signExtend_of_le (by decide)
  · exact Int.le_of_lt_add_one d.toInt_lt

end Sys2Proof

/-! PROOFS. Family 40_load_byte_zero: what `exec` refuses, what it writes and what it leaves unchanged, said once for
all four instructions, and the statements R57 and R59 to R65 read off from that. -/

namespace Sys2Proof.Machine

/-! ### The refusals of an instruction -/

theorem exec_of_invalidForm {i : Instr} (h : i.invalidForm = true) (s : State) :
    exec i s = .refused .invalidForm := by
  rw [exec_eq_loadByteZero, if_pos h]

theorem exec_of_not_admits {i : Instr} {s : State} (hform : i.invalidForm = false)
    (hadmits : admits s .data (instrEa s i) = false) : exec i s = .refused .dataNotAdmitted := by
  have hvalid : ¬i.invalidForm = true := by simp [hform]
  rw [exec_eq_loadByteZero, if_neg hvalid, loadByteZero, if_pos hadmits]

/-! ### What an instruction writes, and what it leaves unchanged -/

/-- R15: the destination, then the update register if the form has one. -/
theorem gprWrites_eq_cons (i : Instr) : gprWrites i = i.rt :: (updateReg i).toList := by
  cases i <;> rfl

theorem readGpr_loadWrites_of_notMem {rt r : Reg} {u : Option Reg} (h : r ∉ rt :: u.toList) (ea : Addr) (s : State) :
    readGpr (loadWrites rt ea u s) r = readGpr s r := by
  obtain ⟨hrt, hu⟩ := not_or.1 (mt List.mem_cons.2 h)
  cases u with
  | none => rw [readGpr_loadWrites_none, if_neg hrt]
  | some ra =>
    have hra : r ≠ ra := by simpa using hu
    rw [readGpr_loadWrites_some, if_neg hra, if_neg hrt]

theorem loadWrites_onlyWrites (rt : Reg) (ea : Addr) (u : Option Reg) (s : State) :
    OnlyWrites (rt :: u.toList) s (loadWrites rt ea u s) :=
  ⟨fun _ h => readGpr_loadWrites_of_notMem h ea s, readByte_congr (loadWrites_mem rt ea u s),
    loadWrites_named rt ea u s, loadWrites_memMap rt ea u s, loadWrites_endPc rt ea u s⟩

/-- R65 for all four: `pc` advances, and no register outside the write set of R15 changes, nor anything else. -/
theorem exec_frame {i : Instr} {s t : State} (h : exec i s = .next t) :
    t.pc = s.pc + 4 ∧ OnlyWrites (gprWrites i) s t := by
  obtain ⟨-, -, -, rfl⟩ := (exec_eq_next_iff i s t).1 h
  rw [gprWrites_eq_cons]
  exact ⟨loadWrites_pc _ _ _ s, loadWrites_onlyWrites _ _ _ s⟩

/-- R60: the register an update form updates receives the effective address, zero-extended. -/
theorem readGpr_updateReg_of_exec_eq_next {i : Instr} {s t : State} {ra : Reg} (hu : updateReg i = some ra)
    (h : exec i s = .next t) : readGpr t ra = zextAddr (instrEa s i) := by
  obtain ⟨-, -, -, rfl⟩ := (exec_eq_next_iff i s t).1 h
  rw [hu, readGpr_loadWrites_some, if_pos rfl]

/-! ### The outcomes of the two kinds of form -/

theorem invalidForm_of_updateReg_none {i : Instr} (hu : updateReg i = none) : i.invalidForm = false := by
  cases i with
  | lbz rt ra d => rfl
  | lbzx rt ra rb => rfl
  | lbzu rt ra d => cases hu
  | lbzux rt ra rb => cases hu

/-- R50: the invalid forms of an instruction that updates `ra`. -/
theorem invalidForm_eq_of_updateReg_some {i : Instr} {ra : Reg} (hu : updateReg i = some ra) :
    i.invalidForm = invalidUpdate i.rt ra := by
  cases i with
  | lbz rt ra' d => cases hu
  | lbzx rt ra' rb => cases hu
  | lbzu rt ra' d => rw [Option.some.inj hu.symm, invalidUpdate_eq_lbzu, Instr.rt]
  | lbzux rt ra' rb => rw [Option.some.inj hu.symm, invalidUpdate_eq_lbzux, Instr.rt]

/-- The outcomes of a form without update: the refusal, and the completion with its one write. -/
theorem exec_of_updateReg_none {i : Instr} (hu : updateReg i = none) (s : State) :
    (admits s .data (instrEa s i) = false → exec i s = .refused .dataNotAdmitted) ∧
    (admits s .data (instrEa s i) = true → s.pc.toNat + 4 < 2 ^ 32 →
      ∃ t, exec i s = .next t ∧ readGpr t i.rt = zextByte (readByte s (instrEa s i)) ∧
        t.pc = s.pc + 4 ∧ OnlyWrites [i.rt] s t) := by
  have hvalid := invalidForm_of_updateReg_none hu
  have hwrites : gprWrites i = [i.rt] := by rw [gprWrites_eq_cons, hu, Option.toList_none]
  refine ⟨exec_of_not_admits hvalid, fun hadmits hpc => ?_⟩
  have h := (exec_eq_next_iff i s _).2 ⟨hvalid, hadmits, hpc, rfl⟩
  exact ⟨_, h, readGpr_rt_of_exec_eq_next h, hwrites ▸ exec_frame h⟩

/-- The outcomes of a form that updates `ra`: the two refusals, and the completion with its two writes. -/
theorem exec_of_updateReg_some {i : Instr} {ra : Reg} (hu : updateReg i = some ra) (s : State) :
    (ra = 0 ∨ ra = i.rt → exec i s = .refused .invalidForm) ∧
    (ra ≠ 0 → ra ≠ i.rt → admits s .data (instrEa s i) = false → exec i s = .refused .dataNotAdmitted) ∧
    (ra ≠ 0 → ra ≠ i.rt → admits s .data (instrEa s i) = true → s.pc.toNat + 4 < 2 ^ 32 →
      ∃ t, exec i s = .next t ∧ readGpr t i.rt = zextByte (readByte s (instrEa s i)) ∧
        readGpr t ra = zextAddr (instrEa s i) ∧ t.pc = s.pc + 4 ∧ OnlyWrites [i.rt, ra] s t) := by
  have hform := invalidForm_eq_of_updateReg_some hu
  have hvalid (h0 : ra ≠ 0) (hne : ra ≠ i.rt) : i.invalidForm = false :=
    hform.trans ((invalidUpdate_eq_false_iff i.rt ra).2 ⟨h0, hne⟩)
  have hwrites : gprWrites i = [i.rt, ra] := by rw [gprWrites_eq_cons, hu, Option.toList_some]
  refine ⟨fun h => exec_of_invalidForm (hform.trans ((invalidUpdate_eq_true_iff i.rt ra).2 h)) s,
    fun h0 hne => exec_of_not_admits (hvalid h0 hne), fun h0 hne hadmits hpc => ?_⟩
  have h := (exec_eq_next_iff i s _).2 ⟨hvalid h0 hne, hadmits, hpc, rfl⟩
  exact ⟨_, h, readGpr_rt_of_exec_eq_next h, readGpr_updateReg_of_exec_eq_next hu h, hwrites ▸ exec_frame h⟩

/-! ### The four instructions (R61 to R64) -/

/-- A word that matches a row of the opcode map decodes to the row's instruction with its own fields (R46). -/
theorem decode_of_and_mask_eq {w mask pattern : InstrWord} {m : Mnemonic}
    (hrow : ⟨m, mask, pattern⟩ ∈ opcodeMap) (h : w &&& mask = pattern) : decode w = .ok (instrOfFields w m) :=
  decode_of_selects ((matchesWord_iff_selects w hrow).1 (beq_iff_eq.2 h))

/-- Settles O14: the row of `lbz` in the opcode map, and the outcomes of a form without update. -/
theorem lbzLoadsTheByte : Obligations.LbzLoadsTheByte := by
  refine ⟨fun _ => decode_of_and_mask_eq (m := .lbz) (by decide), ?_⟩
  rintro rt ra d s ea rfl
  exact exec_of_updateReg_none (i := .lbz rt ra d) rfl s

/-- Settles O15: the row of `lbzu` in the opcode map, and the outcomes of a form that updates `RA`. -/
theorem lbzuLoadsAndUpdates : Obligations.LbzuLoadsAndUpdates := by
  refine ⟨fun _ => decode_of_and_mask_eq (m := .lbzu) (by decide), ?_⟩
  rintro rt ra d s ea rfl
  exact exec_of_updateReg_some (i := .lbzu rt ra d) rfl s

/-- Settles O16: the row of `lbzx` in the opcode map, and the outcomes of a form without update. -/
theorem lbzxLoadsTheByte : Obligations.LbzxLoadsTheByte := by
  refine ⟨fun _ => decode_of_and_mask_eq (m := .lbzx) (by decide), ?_⟩
  rintro rt ra rb s ea rfl
  exact exec_of_updateReg_none (i := .lbzx rt ra rb) rfl s

/-- Settles O17: the row of `lbzux` in the opcode map, and the outcomes of a form that updates `RA`. -/
theorem lbzuxLoadsAndUpdates : Obligations.LbzuxLoadsAndUpdates := by
  refine ⟨fun _ => decode_of_and_mask_eq (m := .lbzux) (by decide), ?_⟩
  rintro rt ra rb s ea rfl
  exact exec_of_updateReg_some (i := .lbzux rt ra rb) rfl s

/-! ### The rules they share (R57, R59, R60, R65) -/

theorem zextByte_toNat (b : Byte) : (zextByte b).toNat = b.toNat :=
  BitVec.toNat_setWidth_of_le (by decide)

theorem zextAddr_toNat (a : Addr) : (zextAddr a).toNat = a.toNat :=
  BitVec.toNat_setWidth_of_le (by decide)

/-- A zero-extended byte is not negative as a signed number: its sign bit is clear. -/
theorem zextByte_toInt (b : Byte) : (zextByte b).toInt = b.toNat := by
  have hb := b.isLt
  rw [BitVec.toInt_eq_toNat_of_lt (by rw [zextByte_toNat]; omega), zextByte_toNat]

@[simp] theorem low32_zextAddr (a : Addr) : low32 (zextAddr a) = a :=
  BitVec.setWidth_setWidth_of_le a (by decide)

/-- Settles O21: `RT` holds the zero-extended byte, whose numbers are those of the byte. -/
theorem loadedValueIsZeroExtended : Obligations.LoadedValueIsZeroExtended := by
  intro i s t h
  have hrt := readGpr_rt_of_exec_eq_next h
  refine ⟨hrt, ?_⟩
  rw [hrt, zextByte_toNat, zextByte_toInt]
  exact ⟨rfl, (readByte s (instrEa s i)).isLt, Int.natCast_nonneg _⟩

/-- R60 for any form that updates: `RT` is the byte at the address its updated register now holds. -/
theorem readGpr_rt_eq_readByte_updateReg {i : Instr} {s t : State} {ra : Reg} (hu : updateReg i = some ra)
    (h : exec i s = .next t) : readGpr t i.rt = zextByte (readByte t (low32 (readGpr t ra))) := by
  obtain ⟨-, -, hmem, -⟩ := exec_frame h
  rw [readGpr_updateReg_of_exec_eq_next hu h, low32_zextAddr, hmem, readGpr_rt_of_exec_eq_next h]

/-- Settles O22: the two writes of an update form, and the frame of the other two. -/
theorem updateWritesEffectiveAddress : Obligations.UpdateWritesEffectiveAddress := by
  constructor
  · intro rt ra rb d i s t hi h
    obtain ⟨hu, hirt⟩ : updateReg i = some ra ∧ i.rt = rt := by
      rcases hi with rfl | rfl <;> exact ⟨rfl, rfl⟩
    have hra := readGpr_updateReg_of_exec_eq_next hu h
    refine ⟨hra, ?_, hirt ▸ readGpr_rt_eq_readByte_updateReg hu h⟩
    rw [hra, zextAddr_toNat]
    exact (instrEa s i).isLt
  · intro rt ra rb d i s t hi h hne
    have hwrites : gprWrites i = [rt] := by
      rcases hi with rfl | rfl <;> rfl
    obtain ⟨-, hgpr, -⟩ := exec_frame h
    exact hgpr ra (by simpa [hwrites] using hne)

/-- Settles O23: `exec_frame`, the write set of R15 read off for each form. -/
theorem instructionFrame : Obligations.InstructionFrame :=
  fun _ _ _ _ _ _ => ⟨exec_frame, exec_frame, exec_frame, exec_frame⟩

theorem base0_of_ne {ra : Reg} (h : ra ≠ 0) (s : State) : base0 s ra = readGpr s ra :=
  if_neg h

/-- Settles O18: the two cases of an `RA0` operand, the plain operand, and R57's example. -/
theorem baseOperandRule : Obligations.BaseOperandRule := by
  intro s rt ra rb d
  have hzero : ∀ d, instrEa s (.lbz rt 0 d) = low32 (0 + sext64 d) := fun d => by
    rw [instrEa_lbz, base0_zero, low32]
  refine ⟨hzero d, ?_, fun hra => ⟨?_, ?_⟩, instrEa_lbzu s rt ra d, instrEa_lbzux s rt ra rb, ?_⟩
  · rw [instrEa_lbzx, base0_zero, low32]
  · rw [instrEa_lbz, base0_of_ne hra, low32]
  · rw [instrEa_lbzx, base0_of_ne hra, low32]
  · rw [hzero]
    decide

end Sys2Proof.Machine

/-! PROOFS. Family other, the word: the fields of an encoded word, a word as its fields, what the decoder refuses, and the
assembler text (spec/30_encoding.md). -/

namespace Sys2Proof

/-! ### The fields of an encoded word (R42, R43) -/

section EncodedFields

variable (opcd : BitVec 6) (rt ra rb : Reg) (d : Disp) (xo : BitVec 10) (rc : BitVec 1)

@[simp] theorem opcdField_encodeD : opcdField (encodeD opcd rt ra d) = opcd := by
  rw [opcdField_eq_iff, encodeD_toNat]
  omega

@[simp] theorem rtField_encodeD : rtField (encodeD opcd rt ra d) = rt := by
  apply Fin.ext
  rw [rtField_val, encodeD_toNat]
  omega

@[simp] theorem raField_encodeD : raField (encodeD opcd rt ra d) = ra := by
  apply Fin.ext
  rw [raField_val, encodeD_toNat]
  omega

@[simp] theorem dField_encodeD : dField (encodeD opcd rt ra d) = d := by
  apply BitVec.eq_of_toNat_eq
  rw [dField_toNat, encodeD_toNat]
  omega

@[simp] theorem opcdField_encodeX : opcdField (encodeX opcd rt ra rb xo rc) = opcd := by
  rw [opcdField_eq_iff, encodeX_toNat]
  omega

@[simp] theorem rtField_encodeX : rtField (encodeX opcd rt ra rb xo rc) = rt := by
  apply Fin.ext
  rw [rtField_val, encodeX_toNat]
  omega

@[simp] theorem raField_encodeX : raField (encodeX opcd rt ra rb xo rc) = ra := by
  apply Fin.ext
  rw [raField_val, encodeX_toNat]
  omega

@[simp] theorem rbField_encodeX : rbField (encodeX opcd rt ra rb xo rc) = rb := by
  apply Fin.ext
  rw [rbField_val, encodeX_toNat]
  omega

@[simp] theorem xoField_encodeX : xoField (encodeX opcd rt ra rb xo rc) = xo := by
  apply BitVec.eq_of_toNat_eq
  rw [xoField_toNat, encodeX_toNat]
  omega

@[simp] theorem rcField_encodeX : rcField (encodeX opcd rt ra rb xo rc) = rc := by
  apply BitVec.eq_of_toNat_eq
  rw [rcField_toNat, encodeX_toNat]
  omega

end EncodedFields

/-- The row of an instruction selects its word. -/
theorem selects_encode (i : Instr) : Selects (encode i) i.mnemonic := by
  cases i <;> simp [encode, Instr.mnemonic, Selects]

/-- The operands of an instruction are the fields of its word. -/
theorem instrOfFields_encode (i : Instr) : instrOfFields (encode i) i.mnemonic = i := by
  cases i <;> simp [encode, Instr.mnemonic, instrOfFields]

/-- Settles O1: the instruction's row selects its word, and its operands are the fields of that word. -/
theorem decodeOfEncode : Obligations.DecodeOfEncode :=
  fun i => (decode_eq_ok_iff _ i).2 ⟨selects_encode i, (instrOfFields_encode i).symm⟩

/-! ### A word is its fields -/

theorem encodeD_fields (w : InstrWord) : encodeD (opcdField w) (rtField w) (raField w) (dField w) = w := by
  apply BitVec.eq_of_toNat_eq
  rw [encodeD_toNat, opcdField_toNat, rtField_val, raField_val, dField_toNat]
  omega

theorem encodeX_fields (w : InstrWord) :
    encodeX (opcdField w) (rtField w) (raField w) (rbField w) (xoField w) (rcField w) = w := by
  apply BitVec.eq_of_toNat_eq
  rw [encodeX_toNat, opcdField_toNat, rtField_val, raField_val, rbField_val, xoField_toNat, rcField_toNat]
  omega

/-- The fields a row leaves open, with the values it fixes, are the whole word. -/
theorem encode_instrOfFields {w : InstrWord} {m : Mnemonic} (h : Selects w m) :
    encode (instrOfFields w m) = w := by
  cases m with
  | lbz =>
    have hw := encodeD_fields w
    rwa [show opcdField w = 34 from h] at hw
  | lbzu =>
    have hw := encodeD_fields w
    rwa [show opcdField w = 35 from h] at hw
  | lbzx =>
    obtain ⟨hopcd, hxo, hrc⟩ := h
    have hw := encodeX_fields w
    rwa [hopcd, hxo, hrc] at hw
  | lbzux =>
    obtain ⟨hopcd, hxo, hrc⟩ := h
    have hw := encodeX_fields w
    rwa [hopcd, hxo, hrc] at hw

/-- Settles O2: the row that selects the word fixes its opcode fields, its operands are the other fields. -/
theorem encodeOfDecode : Obligations.EncodeOfDecode := by
  intro w i h
  rw [eq_instrOfFields_of_decode h]
  exact encode_instrOfFields (selects_of_decode h)

/-! ### What the decoder refuses -/

theorem decode_eq_error_iff (w : InstrWord) :
    decode w = .error .unknownEncoding ↔ ∀ m, ¬Selects w m := by
  refine ⟨fun h m hsel => ?_, fun h => ?_⟩
  · cases (decode_of_selects hsel).symm.trans h
  · cases hd : decode w with
    | ok i => exact absurd (selects_of_decode hd) (h i.mnemonic)
    | error e => rfl

theorem selects_lbzx_iff (w : InstrWord) :
    Selects w .lbzx ↔ w.toNat / 2 ^ 26 = 31 ∧ w.toNat % 2 ^ 11 = 0x0AE :=
  and_congr (opcdField_eq_31 w) (xoRc_eq_87 w)

theorem selects_lbzux_iff (w : InstrWord) :
    Selects w .lbzux ↔ w.toNat / 2 ^ 26 = 31 ∧ w.toNat % 2 ^ 11 = 0x0EE :=
  and_congr (opcdField_eq_31 w) (xoRc_eq_119 w)

/-- Settles O4: the row selected by the numbers decides, and its operands are the fields as numbers. -/
theorem decodeReadsTheFields : Obligations.DecodeReadsTheFields := by
  intro w
  have hrt := rtField_val w
  have hra := raField_val w
  refine ⟨fun h => ?_, fun h => ?_, fun h hlow => ?_, fun h hlow => ?_, fun h34 h35 h31 => ?_⟩
  · exact ⟨_, _, _, decode_of_selects (m := .lbz) ((opcdField_eq_34 w).2 h), hrt, hra, dField_toNat w⟩
  · exact ⟨_, _, _, decode_of_selects (m := .lbzu) ((opcdField_eq_35 w).2 h), hrt, hra, dField_toNat w⟩
  · exact ⟨_, _, _, decode_of_selects ((selects_lbzx_iff w).2 ⟨h, hlow⟩), hrt, hra, rbField_val w⟩
  · exact ⟨_, _, _, decode_of_selects ((selects_lbzux_iff w).2 ⟨h, hlow⟩), hrt, hra, rbField_val w⟩
  · refine (decode_eq_error_iff w).2 fun m hsel => ?_
    cases m with
    | lbz => exact h34 ((opcdField_eq_34 w).1 hsel)
    | lbzu => exact h35 ((opcdField_eq_35 w).1 hsel)
    | lbzx => exact h31 (((selects_lbzx_iff w).1 hsel).imp_right .inl)
    | lbzux => exact h31 (((selects_lbzux_iff w).1 hsel).imp_right .inr)

theorem exists_row_of_mnemonic (m : Mnemonic) : ∃ row ∈ opcodeMap, row.mnemonic = m := by
  cases m <;> decide

theorem decode_of_no_row {w : InstrWord} (h : ∀ row ∈ opcodeMap, row.matchesWord w = false) :
    decode w = .error .unknownEncoding := by
  refine (decode_eq_error_iff w).2 fun m hsel => ?_
  obtain ⟨row, hrow, rfl⟩ := exists_row_of_mnemonic m
  exact Bool.eq_false_iff.1 (h row hrow) ((matchesWord_iff_selects w hrow).2 hsel)

/-- Bit 31 of an X-form word must be 0 (R49): the word matches no row with it set. -/
theorem matchesWord_of_bit31 {w : InstrWord} (hopcd : w.toNat / 2 ^ 26 = 31) (hrc : w.toNat % 2 = 1)
    {row : OpcodeRow} (hrow : row ∈ opcodeMap) : row.matchesWord w = false := by
  refine Bool.eq_false_iff.2 fun hmatch => ?_
  have hsel := (matchesWord_iff_selects w hrow).1 hmatch
  cases hm : row.mnemonic with
  | lbz =>
    have h34 := (opcdField_eq_34 w).1 (hm ▸ hsel : Selects w .lbz)
    omega
  | lbzu =>
    have h35 := (opcdField_eq_35 w).1 (hm ▸ hsel : Selects w .lbzu)
    omega
  | lbzx =>
    have hlow := ((selects_lbzx_iff w).1 (hm ▸ hsel)).2
    omega
  | lbzux =>
    have hlow := ((selects_lbzux_iff w).1 (hm ▸ hsel)).2
    omega

/-- Settles O7: the decoder on eight closed words. -/
theorem sampleWordsDecode : Obligations.SampleWordsDecode := by
  unfold Obligations.SampleWordsDecode
  decide

end Sys2Proof

namespace Sys2Proof.Machine

/-! ### Assembler text (R54, R55) -/

@[simp] theorem parseReg_asmReg (r : Reg) : parseReg (asmReg r) = some r :=
  dif_pos r.isLt

@[simp] theorem parseBase0_asmBase0 (r : Reg) : parseBase0 (asmBase0 r) = some r := by
  unfold asmBase0
  split
  · next h => rw [h, parseBase0, if_pos rfl]
  · next h => exact dif_pos ⟨Nat.pos_of_ne_zero (Fin.val_ne_zero_iff.2 h), r.isLt⟩

@[simp] theorem parseDisp_toInt (d : Disp) : parseDisp d.toInt = some d := by
  have hrange : -32768 ≤ d.toInt ∧ d.toInt ≤ 32767 := ⟨d.le_toInt, Int.le_of_lt_add_one d.toInt_lt⟩
  rw [parseDisp, if_pos hrange, BitVec.ofInt_toInt]

/-- Settles O9: each operand reads back, which leaves the check for an invalid form. -/
theorem assemblerRoundTrip : Obligations.AssemblerRoundTrip := by
  intro i
  have hcheck : parseAsm (asmText i) = asmCheck i := by
    cases i <;> simp [asmText, parseAsm]
  rw [hcheck, asmCheck]

end Sys2Proof.Machine

/-! PROOFS. Family other, the instruction: everything `exec` can do, the effective address as a number, and what the
outcome depends on (spec/40_load_byte_zero.md R57 to R60, spec/60_exceptions.md R72). -/

namespace Sys2Proof.Machine

/-! ### What exec can do -/

theorem wellFormed_eq_true_iff (i : Instr) : i.wellFormed = true ↔ i.invalidForm = false := by
  simp [Instr.wellFormed]

theorem wellFormed_eq_false_iff (i : Instr) : i.wellFormed = false ↔ i.invalidForm = true := by
  simp [Instr.wellFormed]

theorem exec_of_overflow {i : Instr} {s : State} (hform : i.invalidForm = false)
    (hadmits : admits s .data (instrEa s i) = true) (hpc : 2 ^ 32 ≤ s.pc.toNat + 4) :
    exec i s = .refused .pcOverflow := by
  rw [exec_eq_loadByteZero, hform, if_neg Bool.false_ne_true, loadByteZero, hadmits,
    if_neg nofun, if_pos ((pcOverflows_eq_true_iff s).2 hpc)]

theorem exec_of_executable {i : Instr} {s : State} (h : Executable i s) :
    exec i s = .next (loadWrites i.rt (instrEa s i) (updateReg i) s) := by
  obtain ⟨hform, hadmits, hpc⟩ := h
  exact (exec_eq_next_iff i s _).2 ⟨(wellFormed_eq_true_iff i).1 hform, hadmits, hpc, rfl⟩

/-- Everything an instruction can do: one of three refusals, in the order of R72, or its load. -/
theorem exec_cases (i : Instr) (s : State) :
    (i.invalidForm = true ∧ exec i s = .refused .invalidForm) ∨
    (i.invalidForm = false ∧ admits s .data (instrEa s i) = false ∧ exec i s = .refused .dataNotAdmitted) ∨
    (i.invalidForm = false ∧ admits s .data (instrEa s i) = true ∧ 2 ^ 32 ≤ s.pc.toNat + 4 ∧
      exec i s = .refused .pcOverflow) ∨
    (Executable i s ∧ exec i s = .next (loadWrites i.rt (instrEa s i) (updateReg i) s)) := by
  cases hform : i.invalidForm with
  | true => exact .inl ⟨rfl, exec_of_invalidForm hform s⟩
  | false =>
    cases hadmits : admits s .data (instrEa s i) with
    | false => exact .inr (.inl ⟨rfl, rfl, exec_of_not_admits hform hadmits⟩)
    | true =>
      rcases Nat.lt_or_ge (s.pc.toNat + 4) (2 ^ 32) with hpc | hpc
      · have hexec : Executable i s := ⟨(wellFormed_eq_true_iff i).2 hform, hadmits, hpc⟩
        exact .inr (.inr (.inr ⟨hexec, exec_of_executable hexec⟩))
      · exact .inr (.inr (.inl ⟨rfl, rfl, hpc, exec_of_overflow hform hadmits hpc⟩))

theorem exec_ne_fault (i : Instr) (s : State) (f : Fault) : exec i s ≠ .fault f := by
  intro h
  rcases exec_cases i s with ⟨-, e⟩ | ⟨-, -, e⟩ | ⟨-, -, -, e⟩ | ⟨-, e⟩ <;> cases e.symm.trans h

theorem exec_next_iff_executable (i : Instr) (s : State) : (∃ t, exec i s = .next t) ↔ Executable i s := by
  refine ⟨fun ⟨t, h⟩ => ?_, fun h => ⟨_, exec_of_executable h⟩⟩
  obtain ⟨hform, hadmits, hpc, -⟩ := (exec_eq_next_iff i s t).1 h
  exact ⟨(wellFormed_eq_true_iff i).2 hform, hadmits, hpc⟩

theorem exec_eq_invalidForm_iff (i : Instr) (s : State) :
    exec i s = .refused .invalidForm ↔ i.invalidForm = true := by
  refine ⟨fun h => ?_, fun h => exec_of_invalidForm h s⟩
  rcases exec_cases i s with ⟨hform, -⟩ | ⟨-, -, e⟩ | ⟨-, -, -, e⟩ | ⟨-, e⟩
  · exact hform
  all_goals cases e.symm.trans h

/-- Why an instruction is refused. -/
theorem exec_refused_cases {i : Instr} {s : State} {r : Refusal} (h : exec i s = .refused r) :
    r = .invalidForm ∨ r = .dataNotAdmitted ∨ (r = .pcOverflow ∧ 2 ^ 32 ≤ s.pc.toNat + 4) := by
  rcases exec_cases i s with ⟨-, e⟩ | ⟨-, -, e⟩ | ⟨-, -, hpc, e⟩ | ⟨-, e⟩ <;> cases e.symm.trans h
  · exact .inl rfl
  · exact .inr (.inl rfl)
  · exact .inr (.inr ⟨rfl, hpc⟩)

/-- R18: `pc` grows by 4 as a number, so it does not wrap. -/
theorem exec_pc_toNat {i : Instr} {s t : State} (h : exec i s = .next t) : t.pc.toNat = s.pc.toNat + 4 := by
  obtain ⟨-, -, hpc, rfl⟩ := (exec_eq_next_iff i s t).1 h
  rw [loadWrites_pc, BitVec.toNat_add]
  exact Nat.mod_eq_of_lt hpc

/-- No instruction stores. -/
theorem exec_mem {i : Instr} {s t : State} (h : exec i s = .next t) : t.mem = s.mem := by
  obtain ⟨-, -, -, rfl⟩ := (exec_eq_next_iff i s t).1 h
  exact loadWrites_mem _ _ _ s

/-- Settles O25: the completed case of `exec`, and the refusal `exec_cases` gives at the top. -/
theorem pcAdvancesByFour : Obligations.PcAdvancesByFour := by
  refine ⟨fun i s t => exec_pc_toNat, fun i s hform hadmits => ⟨fun h => ?_, ?_⟩, fun s h4 => ?_⟩
  · obtain e | e | ⟨-, hpc⟩ := exec_refused_cases h
    · cases e
    · cases e
    · exact hpc
  · exact exec_of_overflow ((wellFormed_eq_true_iff i).1 hform) hadmits
  · have hlt := s.pc.isLt
    rw [← BitVec.toNat_inj, show (0xFFFFFFFC : Addr).toNat = 0xFFFFFFFC from rfl]
    omega

/-- Settles O26: the refusal is that of the invalid forms, which only the update forms have. -/
theorem invalidFormsRefused : Obligations.InvalidFormsRefused := by
  intro rt ra rb d s
  have hupdate := invalidUpdate_eq_true_iff rt ra
  exact ⟨(exec_eq_invalidForm_iff (.lbzu rt ra d) s).trans hupdate,
    (exec_eq_invalidForm_iff (.lbzux rt ra rb) s).trans hupdate,
    fun h => Bool.false_ne_true ((exec_eq_invalidForm_iff _ s).1 h),
    fun h => Bool.false_ne_true ((exec_eq_invalidForm_iff _ s).1 h)⟩

/-- Settles O27: the last case of `exec_cases` is completion, the other three are the refusals. -/
theorem execCompletesExactly : Obligations.ExecCompletesExactly := by
  refine fun i s => ⟨exec_next_iff_executable i s, fun hnot => ?_⟩
  rcases exec_cases i s with ⟨-, e⟩ | ⟨-, -, e⟩ | ⟨-, -, -, e⟩ | ⟨hexec, -⟩
  · exact .inl e
  · exact .inr (.inl e)
  · exact .inr (.inr e)
  · exact absurd hexec hnot

/-! ### Base, offset and effective address, said once for the four forms (R57, R58) -/

/-- The base an instruction adds (R57). -/
def instrBase (s : State) : Instr → Word
  | .lbz _ ra _ => base0 s ra
  | .lbzu _ ra _ => readGpr s ra
  | .lbzx _ ra _ => base0 s ra
  | .lbzux _ ra _ => readGpr s ra

/-- The offset it adds: the sign-extended displacement, or the index register. -/
def instrOffset (s : State) : Instr → Word
  | .lbz _ _ d => sext64 d
  | .lbzu _ _ d => sext64 d
  | .lbzx _ _ rb => readGpr s rb
  | .lbzux _ _ rb => readGpr s rb

theorem instrEa_eq_effectiveAddress (s : State) (i : Instr) :
    instrEa s i = effectiveAddress (instrBase s i) (instrOffset s i) := by
  cases i <;> rfl

theorem effectiveAddress_toNat (base offset : Word) :
    (effectiveAddress base offset).toNat = (base.toNat + offset.toNat) % 2 ^ 64 % 2 ^ 32 := by
  rw [effectiveAddress, low32, BitVec.toNat_setWidth, BitVec.toNat_add]

theorem effectiveAddress_toNat_low (base offset : Word) :
    (effectiveAddress base offset).toNat = (base.toNat % 2 ^ 32 + offset.toNat % 2 ^ 32) % 2 ^ 32 := by
  rw [effectiveAddress_toNat]
  omega

/-- Settles O19: each form's base and offset in `effectiveAddress_toNat`. -/
theorem effectiveAddressIsLow32 : Obligations.EffectiveAddressIsLow32 := by
  intro s rt ra rb d base offset i h
  have hea : instrEa s i = effectiveAddress base offset := by
    rcases h with ⟨rfl, rfl, rfl⟩ | ⟨rfl, rfl, rfl⟩ | ⟨rfl, rfl, rfl⟩ | ⟨rfl, rfl, rfl⟩ <;> rfl
  rw [hea]
  exact ⟨effectiveAddress_toNat base offset, effectiveAddress_toNat_low base offset⟩

/-- R44 as numbers: a displacement from 2^15 up is negative, and its upper 48 bits are ones. -/
theorem sext64_toNat (d : Disp) :
    (sext64 d).toNat = if d.toNat < 2 ^ 15 then d.toNat else d.toNat + 2 ^ 64 - 2 ^ 16 := by
  rw [sext64, BitVec.toNat_signExtend, BitVec.toNat_setWidth_of_le (by decide)]
  by_cases h : d.toNat < 2 ^ 15
  · have hmsb : d.msb = false := BitVec.msb_eq_false_iff_two_mul_lt.2 (by omega)
    rw [hmsb, if_neg Bool.false_ne_true, if_pos h, Nat.add_zero]
  · have hmsb : d.msb = true := BitVec.msb_eq_true_iff_two_mul_ge.2 (by omega)
    rw [hmsb, if_pos rfl, if_neg h]
    omega

/-- Settles O20: the address is the displacement modulo 2^32. -/
theorem lbzAbsoluteAddress : Obligations.LbzAbsoluteAddress := by
  intro s rt d
  have hd := d.isLt
  have hea : (instrEa s (.lbz rt 0 d)).toNat = (sext64 d).toNat % 2 ^ 32 := by
    rw [instrEa_lbz, base0_zero, zero_add, BitVec.toNat_setWidth]
  rw [hea, sext64_toNat, BitVec.toInt_eq_toNat_cond]
  split <;> split <;> split <;> omega

/-- Settles O6: two words with every operand field 0 address by the rule of the zero base, two are invalid forms. -/
theorem bareOpcodeWords : Obligations.BareOpcodeWords := by
  refine ⟨by decide, by decide, by decide, by decide, fun s => ⟨?_, ?_, exec_of_invalidForm rfl s,
    exec_of_invalidForm rfl s⟩⟩
  · rw [instrEa_lbz, base0_zero]
    decide
  · rw [instrEa_lbzx, base0_zero, zero_add]

/-! ### The outcome depends on the address and the byte alone -/

/-- In `s'` an instruction writes the registers it writes in `s` with the same values, and is refused alike. -/
def ActsAlike (i : Instr) (s s' : State) : Prop :=
  (∀ t, exec i s = .next t → ∃ t', exec i s' = .next t' ∧ ∀ r ∈ gprWrites i, readGpr t' r = readGpr t r) ∧
  (∀ r, exec i s = .refused r → exec i s' = .refused r)

theorem readGpr_loadWrites_congr {s s' : State} {ea : Addr} (hbyte : readByte s' ea = readByte s ea) {rt r : Reg}
    {u : Option Reg} (hr : r ∈ rt :: u.toList) :
    readGpr (loadWrites rt ea u s') r = readGpr (loadWrites rt ea u s) r := by
  cases u with
  | none =>
    have hrt : r = rt := by simpa using hr
    rw [readGpr_loadWrites_none, readGpr_loadWrites_none, if_pos hrt, if_pos hrt, hbyte]
  | some ra =>
    rw [readGpr_loadWrites_some, readGpr_loadWrites_some, hbyte]
    split
    · rfl
    · next hra =>
      have hrt : r = rt := by simpa [hra] using hr
      rw [if_pos hrt, if_pos hrt]

theorem actsAlike_of_refused {i : Instr} {s s' : State} {r : Refusal} (h : exec i s = .refused r)
    (h' : exec i s' = .refused r) : ActsAlike i s s' :=
  ⟨fun _ e => (nomatch h.symm.trans e), fun _ e => h'.trans (h.symm.trans e)⟩

/-- The address, the byte there, the admission parameter and `pc` fix what is written and what is refused. -/
theorem actsAlike_of_instrEa_eq {i : Instr} {s s' : State} (hea : instrEa s' i = instrEa s i)
    (hbyte : readByte s' (instrEa s i) = readByte s (instrEa s i)) (hmap : s'.memMap = s.memMap)
    (hpc : s'.pc = s.pc) : ActsAlike i s s' := by
  have hadmits : admits s' .data (instrEa s' i) = admits s .data (instrEa s i) := by
    rw [hea, admits_congr hmap]
  rcases exec_cases i s with ⟨hform, e⟩ | ⟨hform, hno, e⟩ | ⟨hform, hyes, htop, e⟩ | ⟨⟨hform, hyes, hlt⟩, e⟩
  · exact actsAlike_of_refused e (exec_of_invalidForm hform s')
  · exact actsAlike_of_refused e (exec_of_not_admits hform (hadmits.trans hno))
  · exact actsAlike_of_refused e (exec_of_overflow hform (hadmits.trans hyes) (hpc ▸ htop))
  · refine ⟨fun t h => ?_, fun _ h => nomatch e.symm.trans h⟩
    cases e.symm.trans h
    refine ⟨_, exec_of_executable ⟨hform, hadmits.trans hyes, hpc ▸ hlt⟩, fun r hr => ?_⟩
    rw [hea]
    exact readGpr_loadWrites_congr hbyte (gprWrites_eq_cons i ▸ hr)

theorem base0_congr {s s' : State} {ra : Reg} (h : ∀ r ∈ base0Reads ra, readGpr s' r = readGpr s r) :
    base0 s' ra = base0 s ra := by
  unfold base0
  split
  · rfl
  · next hra => exact h ra (by simp [base0Reads, hra])

/-- The address is a function of the registers read (R15). -/
theorem instrEa_congr {i : Instr} {s s' : State} (h : ∀ r ∈ gprReads i, readGpr s' r = readGpr s r) :
    instrEa s' i = instrEa s i := by
  cases i with
  | lbz rt ra d => rw [instrEa_lbz, instrEa_lbz, base0_congr h]
  | lbzu rt ra d => rw [instrEa_lbzu, instrEa_lbzu, h ra (by simp [gprReads])]
  | lbzx rt ra rb =>
    rw [instrEa_lbzx, instrEa_lbzx, h rb (by simp [gprReads]),
      base0_congr fun r hr => h r (List.mem_append_left _ hr)]
  | lbzux rt ra rb =>
    rw [instrEa_lbzux, instrEa_lbzux, h ra (by simp [gprReads]), h rb (by simp [gprReads])]

/-- Settles O28: equal registers read give an equal address. -/
theorem onlyOperandsMatter : Obligations.OnlyOperandsMatter :=
  fun _ _ _ hreads hbyte hmap hpc => actsAlike_of_instrEa_eq (instrEa_congr hreads) hbyte hmap hpc

section LowHalves

variable {s s' : State} (hlow : ∀ r, (readGpr s' r).toNat % 2 ^ 32 = (readGpr s r).toNat % 2 ^ 32)

include hlow

theorem base0_toNat_mod (ra : Reg) : (base0 s' ra).toNat % 2 ^ 32 = (base0 s ra).toNat % 2 ^ 32 := by
  unfold base0
  split
  · rfl
  · exact hlow ra

theorem instrBase_toNat_mod (i : Instr) :
    (instrBase s' i).toNat % 2 ^ 32 = (instrBase s i).toNat % 2 ^ 32 := by
  cases i with
  | lbz rt ra d => exact base0_toNat_mod hlow ra
  | lbzu rt ra d => exact hlow ra
  | lbzx rt ra rb => exact base0_toNat_mod hlow ra
  | lbzux rt ra rb => exact hlow ra

theorem instrOffset_toNat_mod (i : Instr) :
    (instrOffset s' i).toNat % 2 ^ 32 = (instrOffset s i).toNat % 2 ^ 32 := by
  cases i with
  | lbz rt ra d => rfl
  | lbzu rt ra d => rfl
  | lbzx rt ra rb => exact hlow rb
  | lbzux rt ra rb => exact hlow rb

/-- The low halves of the registers fix the address (D1). -/
theorem instrEa_of_low_halves (i : Instr) : instrEa s' i = instrEa s i := by
  apply BitVec.eq_of_toNat_eq
  rw [instrEa_eq_effectiveAddress, instrEa_eq_effectiveAddress, effectiveAddress_toNat_low,
    effectiveAddress_toNat_low, instrBase_toNat_mod hlow, instrOffset_toNat_mod hlow]

end LowHalves

/-- Settles O29: equal low halves give an equal address. -/
theorem highHalvesIgnored : Obligations.HighHalvesIgnored := by
  rintro i s s' ⟨hpc, hmem, hmap, -, -⟩ hlow
  exact actsAlike_of_instrEa_eq (instrEa_of_low_halves hlow i) (readByte_congr hmem _) hmap hpc

/-! ### Position and form -/

theorem instrEa_setPc (s : State) (p : Addr) (i : Instr) : instrEa (setPc s p) i = instrEa s i :=
  instrEa_congr fun _ _ => rfl

theorem loadWrites_setPc (rt : Reg) (ea : Addr) (u : Option Reg) (s : State) (p : Addr) :
    loadWrites rt ea u (setPc s p) = setPc (loadWrites rt ea u s) (p + 4) := by
  cases u <;> rfl

/-- Settles O30: neither the address nor the writes other than that of `pc` depend on `pc`. -/
theorem positionIndependent : Obligations.PositionIndependent := by
  intro i s t p h hp
  obtain ⟨hform, hadmits, -, rfl⟩ := (exec_eq_next_iff i s t).1 h
  refine (exec_eq_next_iff i _ _).2 ⟨hform, ?_, hp, ?_⟩
  · rw [instrEa_setPc]
    exact hadmits
  · rw [instrEa_setPc, loadWrites_setPc]

/-- Settles O31: the two forms have one base, and by hypothesis one offset. -/
theorem indexedEqualsDisplacement : Obligations.IndexedEqualsDisplacement := by
  intro rt ra rb d s h
  have hoffset : index s rb = sext64 d := h
  have hbase0 : eaLbzx s ra rb = eaLbz s ra d := by rw [eaLbzx, eaLbz, hoffset]
  have hbaseRa : eaLbzux s ra rb = eaLbzu s ra d := by rw [eaLbzux, eaLbzu, hoffset]
  constructor
  · rw [exec, exec, execLbzx, execLbz, hbase0]
  · rw [exec, exec, execLbzux, execLbzu, hbaseRa]

end Sys2Proof.Machine

/-! PROOFS. Family other, memory: canonical memories are their bytes, the word at an aligned address, and the word the
launch places (spec/10_state.md section 6, spec/20_memory.md R30). -/

namespace Sys2Proof.Machine

/-! ### Memory is an array of bytes -/

theorem readCell_cons_self (a : Nat) (b : Byte) (m : Memory) : readCell ((a, b) :: m) a = b :=
  if_pos rfl

theorem readCell_cons_of_ne {a k : Nat} (h : a ≠ k) (b : Byte) (m : Memory) :
    readCell ((a, b) :: m) k = readCell m k :=
  if_neg h

/-- The first address a canonical list names is listed in any canonical list that reads the same there. -/
theorem le_of_readCell_eq {lo a : Nat} {b : Byte} {m m' : Memory} (hm : wfFrom lo ((a, b) :: m) = true)
    {lo' : Nat} (hm' : wfFrom lo' m' = true) (h : readCell ((a, b) :: m) a = readCell m' a) : lo' ≤ a := by
  obtain ⟨-, -, hb, -⟩ := wfFrom_cons.1 hm
  by_contra hlt
  rw [readCell_cons_self, readCell_below hm' (by omega)] at h
  exact hb h

/-- Two lists canonical from `lo` up that read the same at every address are equal. -/
theorem eq_of_readCell_eq {lo : Nat} {m m' : Memory} (hm : wfFrom lo m = true) (hm' : wfFrom lo m' = true)
    (h : ∀ k < Config.addrCount, readCell m k = readCell m' k) : m = m' := by
  induction m generalizing lo m' with
  | nil =>
    cases m' with
    | nil => rfl
    | cons c' m' =>
      obtain ⟨-, hlt, hb, -⟩ := wfFrom_cons.1 hm'
      exact absurd ((h c'.1 hlt).trans (readCell_cons_self ..)).symm hb
  | cons c m ih =>
    obtain ⟨a, b⟩ := c
    obtain ⟨-, hlt, hb, hrest⟩ := wfFrom_cons.1 hm
    cases m' with
    | nil => exact absurd ((readCell_cons_self ..).symm.trans (h a hlt)) hb
    | cons c' m' =>
      obtain ⟨a', b'⟩ := c'
      obtain ⟨-, hlt', hb', hrest'⟩ := wfFrom_cons.1 hm'
      have ha : a = a' := by
        have hle := le_of_readCell_eq (lo' := a') hm (wfFrom_cons.2 ⟨le_rfl, hlt', hb', hrest'⟩) (h a hlt)
        have hle' := le_of_readCell_eq (lo' := a) hm' (wfFrom_cons.2 ⟨le_rfl, hlt, hb, hrest⟩) (h a' hlt').symm
        omega
      subst ha
      have hbyte : b = b' := by
        have hk := h a hlt
        rwa [readCell_cons_self, readCell_cons_self] at hk
      subst hbyte
      refine congrArg _ (ih hrest hrest' fun k hk => ?_)
      by_cases hak : a = k
      · rw [readCell_below hrest (by omega), readCell_below hrest' (by omega)]
      · have hrk := h k hk
        rwa [readCell_cons_of_ne hak, readCell_cons_of_ne hak] at hrk

/-- Settles O11: induction on the two lists, whose first entries must agree. -/
theorem memoryIsItsBytes : Obligations.MemoryIsItsBytes :=
  fun _ _ hm hm' h => eq_of_readCell_eq hm hm' fun k hk => h ⟨⟨k, hk⟩⟩

/-! ### The word at an address -/

/-- A word at a multiple of 4 does not run over the end of the address space. -/
theorem toNat_add_of_aligned {a : Addr} (h : a.toNat % 4 = 0) {k : Nat} (hk : k < 4) :
    (a + BitVec.ofNat 32 k).toNat = a.toNat + k := by
  have ha := a.isLt
  rw [BitVec.toNat_add, BitVec.toNat_ofNat]
  omega

/-- The byte at offset `k` of a word, its address as a number. -/
theorem readByte_add_of_aligned {a : Addr} (h : a.toNat % 4 = 0) {k : Nat} (hk : k < 4) (s : State) :
    readByte s (a + BitVec.ofNat 32 k) = readCell s.mem (a.toNat + k) := by
  rw [readByte, toNat_add_of_aligned h hk]

/-- The fetched word is the number of line 3 of R86. -/
theorem wordAt_toNat {s : State} (h : s.pc.toNat % 4 = 0) : (wordAt s s.pc).toNat = natWord s := by
  have hbyte {k : Nat} (hk : k < 4) : readByte s (s.pc + BitVec.ofNat 32 k) = readCell s.mem (s.pc.toNat + k) :=
    readByte_add_of_aligned h hk s
  have h1 : readByte s (s.pc + 1) = _ := hbyte (k := 1) (by decide)
  have h2 : readByte s (s.pc + 2) = _ := hbyte (k := 2) (by decide)
  have h3 : readByte s (s.pc + 3) = _ := hbyte (k := 3) (by decide)
  rw [wordAt, wordOfBytes_toNat, h1, h2, h3, readByte]
  rfl

/-- The primary opcode stands in the first byte of a word. -/
theorem opcdField_wordOfBytes (b0 b1 b2 b3 : Byte) :
    opcdField (wordOfBytes b0 b1 b2 b3) = b0.extractLsb' 2 6 := by
  have h1 := b1.isLt
  have h2 := b2.isLt
  have h3 := b3.isLt
  rw [opcdField_eq_iff, wordOfBytes_toNat, BitVec.extractLsb'_toNat, Nat.shiftRight_eq_div_pow]
  omega

theorem fetch_eq_ok_iff (s : State) (w : InstrWord) :
    fetch s = .ok w ↔ s.pc.toNat % 4 = 0 ∧ fetchAdmitted s = true ∧ w = wordAt s s.pc := by
  rcases fetch_cases s with ⟨h4, e⟩ | ⟨h4, hf, e⟩ | ⟨h4, hf, e⟩
  · simp [e, h4]
  · simp [e, hf]
  · simp [e, h4, hf, eq_comm]

/-- Settles O12: the fetched word is the one at an aligned `pc`, the sum of its four bytes. -/
theorem fetchIsBigEndian : Obligations.FetchIsBigEndian := by
  intro s w h
  obtain ⟨h4, -, rfl⟩ := (fetch_eq_ok_iff s w).1 h
  have hlt := s.pc.isLt
  exact ⟨h4, by omega, wordAt_toNat h4, opcdField_wordOfBytes ..⟩

/-! ### A placed word -/

/-- What placing a word makes of each byte. -/
theorem readCell_placeWord {m : Memory} (hm : m.wf = true) (a b : Addr) (w : InstrWord) :
    readCell (placeWord m a w) b.toNat =
      if a + 3 = b then byteOfWord w 3 else if a + 2 = b then byteOfWord w 2
      else if a + 1 = b then byteOfWord w 1 else if a = b then byteOfWord w 0
      else readCell m b.toNat := by
  have hm0 := placeByte_wf hm a (byteOfWord w 0)
  have hm1 := placeByte_wf hm0 (a + 1) (byteOfWord w 1)
  have hm2 := placeByte_wf hm1 (a + 2) (byteOfWord w 2)
  rw [placeWord, readCell_placeByte hm2, readCell_placeByte hm1, readCell_placeByte hm0, readCell_placeByte hm]

/-- In canonical memory the placed word is the word standing there. -/
theorem wordAt_of_mem_eq_placeWord {s : State} {m : Memory} {a : Addr} {w : InstrWord} (hm : m.wf = true)
    (h : s.mem = placeWord m a w) : wordAt s a = w := by
  have hread (b : Addr) : readByte s b = readCell (placeWord m a w) b.toNat := by rw [readByte, h]
  simp only [wordAt, hread, readCell_placeWord hm]
  simp [wordOfBytes_byteOfWord]

/-- Settles O13: `readCell_placeWord` at the four addresses and outside them. -/
theorem placedWordReadsBack : Obligations.PlacedWordReadsBack := by
  intro s a w hm h4
  have ha := a.isLt
  refine ⟨wordAt_of_mem_eq_placeWord hm rfl, ?_, fun b hb => ?_⟩
  · rw [readCell_placeWord hm]
    simp [byteOfWord]
  · have hne {k : Nat} (hk : k < 4) : a + BitVec.ofNat 32 k ≠ b := fun e => by
      have hk' := toNat_add_of_aligned h4 hk
      rw [e] at hk'
      omega
    have hne0 : a ≠ b := fun e => by
      rw [e] at hb
      omega
    have hne1 : a + 1 ≠ b := hne (k := 1) (by decide)
    have hne2 : a + 2 ≠ b := hne (k := 2) (by decide)
    have hne3 : a + 3 ≠ b := hne (k := 3) (by decide)
    rw [readCell_placeWord hm, if_neg hne3, if_neg hne2, if_neg hne1, if_neg hne0]

end Sys2Proof.Machine

/-! PROOFS. Family other, the step: one rule per check of R72, the frame of a step, and the launched word
(spec/70_reset_and_hazards.md R83, R86). -/

namespace Sys2Proof.Machine

/-! ### The step: one rule per check (R72, R86) -/

theorem fetchAdmitted_eq_true_iff (s : State) :
    fetchAdmitted s = true ↔ ∀ k : Fin 4, admits s .fetch (s.pc + BitVec.ofNat 32 k.val) = true := by
  simp [fetchAdmitted, Fin.forall_fin_succ, and_assoc]

theorem fetchAdmitted_eq_false_iff (s : State) :
    fetchAdmitted s = false ↔ ∃ k : Fin 4, admits s .fetch (s.pc + BitVec.ofNat 32 k.val) = false := by
  rw [← Bool.not_eq_true, fetchAdmitted_eq_true_iff, not_forall]
  simp only [Bool.not_eq_true]

theorem fetch_of_misaligned {s : State} (h : s.pc.toNat % 4 ≠ 0) : fetch s = .error .pcMisaligned :=
  if_pos ((pcAligned_eq_false_iff s).2 h)

theorem fetch_of_not_admitted {s : State} (h4 : s.pc.toNat % 4 = 0) (hf : fetchAdmitted s = false) :
    fetch s = .error .fetchNotAdmitted := by
  have haligned : ¬pcAligned s = false := fun h => (pcAligned_eq_false_iff s).1 h h4
  rw [fetch, if_neg haligned, if_pos hf]

section StepRules

variable {s : State} (hpc : s.pc ≠ s.endPc)

include hpc

theorem step_of_fetch_error {r : Refusal} (hf : fetch s = .error r) : step s = .refused r := by
  simp [step, runComplete_eq_true_iff, hpc, hf]

theorem step_of_decode_error {w : InstrWord} (hf : fetch s = .ok w) (hd : decode w = .error .unknownEncoding) :
    step s = .refused .unknownEncoding := by
  simp [step, runComplete_eq_true_iff, hpc, hf, hd, refusalOfDecode]

theorem step_of_decode_ok {w : InstrWord} {i : Instr} (hf : fetch s = .ok w) (hd : decode w = .ok i) :
    step s = exec i s := by
  simp [step, runComplete_eq_true_iff, hpc, hf, hd]

theorem step_eq_exec (h4 : s.pc.toNat % 4 = 0) (hf : fetchAdmitted s = true) {i : Instr}
    (hd : decode (wordAt s s.pc) = .ok i) : step s = exec i s :=
  step_of_decode_ok hpc ((fetch_eq_ok_iff s _).2 ⟨h4, hf, rfl⟩) hd

end StepRules

theorem step_of_complete {s : State} (h : s.pc = s.endPc) : step s = .fault .runComplete :=
  if_pos ((runComplete_eq_true_iff s).2 h)

/-- The one way to a next state: all checks of the fetch pass, and the decoded instruction answers it. -/
theorem of_step_eq_next {s t : State} (h : step s = .next t) :
    s.pc ≠ s.endPc ∧ s.pc.toNat % 4 = 0 ∧ ∃ i, decode (wordAt s s.pc) = .ok i ∧ exec i s = .next t := by
  rcases step_cases s with ⟨-, e⟩ | ⟨-, r, -, e⟩ | ⟨-, w, -, -, e⟩ | ⟨hpc, w, i, hf, hd, e⟩
  · cases e.symm.trans h
  · cases e.symm.trans h
  · cases e.symm.trans h
  · obtain ⟨h4, -, rfl⟩ := (fetch_eq_ok_iff s w).1 hf
    exact ⟨hpc, h4, i, hd, e.symm.trans h⟩

/-- What a step leaves unchanged, and `pc` as a number. -/
theorem step_frame {s t : State} (h : step s = .next t) :
    t.pc.toNat = s.pc.toNat + 4 ∧ t.mem = s.mem ∧ t.memMap = s.memMap ∧ t.endPc = s.endPc ∧ t.named = s.named := by
  obtain ⟨-, -, i, -, he⟩ := of_step_eq_next h
  obtain ⟨-, -, -, hnamed, hmap, hend⟩ := exec_frame he
  exact ⟨exec_pc_toNat he, exec_mem he, hmap, hend, hnamed⟩

theorem fetch_error_cases {s : State} {r : Refusal} (h : fetch s = .error r) :
    (r = .pcMisaligned ∧ s.pc.toNat % 4 ≠ 0) ∨ r = .fetchNotAdmitted := by
  rcases fetch_cases s with ⟨h4, e⟩ | ⟨-, -, e⟩ | ⟨-, -, e⟩
  · exact .inl ⟨Except.error.inj (h.symm.trans e), h4⟩
  · exact .inr (Except.error.inj (h.symm.trans e))
  · cases e.symm.trans h

/-- Where a refusal of the step comes from: the fetch, the decoder or the instruction. -/
theorem step_refused_cases {s : State} {r : Refusal} (h : step s = .refused r) :
    s.pc ≠ s.endPc ∧ (fetch s = .error r ∨ r = .unknownEncoding ∨ ∃ i, exec i s = .refused r) := by
  rcases step_cases s with ⟨-, e⟩ | ⟨hne, r', hf, e⟩ | ⟨hne, w, -, -, e⟩ | ⟨hne, w, i, -, -, e⟩
  · cases e.symm.trans h
  · cases e.symm.trans h
    exact ⟨hne, .inl hf⟩
  · exact ⟨hne, .inr (.inl (Host.Outcome.refused.inj (h.symm.trans e)))⟩
  · exact ⟨hne, .inr (.inr ⟨i, e.symm.trans h⟩)⟩

/-- Settles O5: such a word is refused by the decoder, and the mask of an X-form row keeps bit 31. -/
theorem unmatchedWordRefused : Obligations.UnmatchedWordRefused :=
  ⟨fun _ _ hpc hf hrow => step_of_decode_error hpc hf (decode_of_no_row hrow),
    fun _ hopcd _ hrc _ hrow => matchesWord_of_bit31 hopcd hrc hrow⟩

/-- Settles O32: the checks of the fetch pass, and the bytes at `pc` are its word. -/
theorem stepRunsDecodedInstr : Obligations.StepRunsDecodedInstr :=
  fun s _ hpc h4 hf hd _ => step_eq_exec hpc h4 ((fetchAdmitted_eq_true_iff s).2 hf) hd

/-- Settles O33: the rule of the step or of `exec` for each check. -/
theorem refusalPriority : Obligations.RefusalPriority := by
  refine fun s hpc =>
    ⟨fun h4 => step_of_fetch_error hpc (fetch_of_misaligned h4), fun h4 => ⟨fun hf => ?_, fun hf => ?_⟩⟩
  · exact step_of_fetch_error hpc (fetch_of_not_admitted h4 ((fetchAdmitted_eq_false_iff s).2 hf))
  · have hf' := (fetchAdmitted_eq_true_iff s).2 hf
    refine ⟨step_of_decode_error hpc ((fetch_eq_ok_iff s _).2 ⟨h4, hf', rfl⟩), fun i hd => ?_⟩
    have hvalid := (wellFormed_eq_true_iff i).1
    rw [step_eq_exec hpc h4 hf' hd]
    refine ⟨fun hform => exec_of_invalidForm ((wellFormed_eq_false_iff i).1 hform) s,
      fun hform => exec_of_not_admits (hvalid hform), fun hform => exec_of_overflow (hvalid hform),
      fun hform hadmits hlt => ?_⟩
    have hnext := exec_of_executable ⟨hform, hadmits, hlt⟩
    exact ⟨_, hnext, hnext⟩

theorem eq_of_step_eq_fault {s : State} {f : Fault} (h : step s = .fault f) : f = .runComplete ∧ s.pc = s.endPc := by
  rcases step_cases s with ⟨hpc, e⟩ | ⟨-, r, -, e⟩ | ⟨-, w, -, -, e⟩ | ⟨-, w, i, -, -, e⟩
  · cases e.symm.trans h
    exact ⟨rfl, hpc⟩
  · cases e.symm.trans h
  · cases e.symm.trans h
  · exact absurd (e.symm.trans h) (exec_ne_fault i s f)

/-- Settles O35: no instruction faults, and the step only where the run is complete. -/
theorem stepFaultsOnlyWhenComplete : Obligations.StepFaultsOnlyWhenComplete := by
  refine fun s f => ⟨eq_of_step_eq_fault, ?_⟩
  rintro ⟨rfl, hpc⟩
  exact step_of_complete hpc

/-! ### The launch of a word -/

section Launch

variable (s : State) (w : InstrWord)

/-- Rounding down to a multiple of 4. -/
theorem and_mask_toNat (a : Addr) : (a &&& 0xFFFFFFFC).toNat = a.toNat / 4 * 4 := by
  have ha := a.isLt
  have hdiv : (a &&& 0xFFFFFFFC).toNat / 2 ^ 2 = a.toNat / 2 ^ 2 := by
    rw [BitVec.toNat_and, Nat.and_div_two_pow,
      show (0xFFFFFFFC : Addr).toNat / 2 ^ 2 = 2 ^ 30 - 1 from rfl, Nat.and_two_pow_sub_one_eq_mod]
    omega
  have hmod : (a &&& 0xFFFFFFFC).toNat % 2 ^ 2 = 0 := by
    rw [BitVec.toNat_and, Nat.and_mod_two_pow, show (0xFFFFFFFC : Addr).toNat % 2 ^ 2 = 0 from rfl, Nat.and_zero]
  omega

theorem launchWord_pc_aligned : (launchWord s w).pc.toNat % 4 = 0 := by
  rw [launchWord_pc, and_mask_toNat]
  omega

theorem launchWord_pc_ne_endPc : (launchWord s w).pc ≠ (launchWord s w).endPc := by
  rw [launchWord_pc, launchWord_endPc]
  split
  · bv_omega
  · exact Ne.symm ‹_›

theorem launchWord_fetchAdmitted : fetchAdmitted (launchWord s w) = true := by
  have h4 := launchWord_pc_aligned s w
  rw [fetchAdmitted_eq_true_iff]
  intro k
  by_cases hf : fetchAdmitted (setPc s (s.pc &&& 0xFFFFFFFC)) = true
  · have hmap : (launchWord s w).memMap = (setPc s (s.pc &&& 0xFFFFFFFC)).memMap := by
      rw [launchWord_memMap, if_pos hf, setPc_memMap]
    rw [admits_congr hmap]
    exact (fetchAdmitted_eq_true_iff _).1 hf k
  · have hk := toNat_add_of_aligned h4 k.isLt
    have h3 : ((launchWord s w).pc + 3).toNat = _ := toNat_add_of_aligned h4 (k := 3) (by decide)
    have hregion : regionAdmits .fetch ((launchWord s w).pc + BitVec.ofNat 32 k.val)
        ⟨.fetch, (launchWord s w).pc, (launchWord s w).pc + 3⟩ = true := by
      simp only [regionAdmits, BitVec.le_def, hk, h3, Bool.and_eq_true, decide_eq_true_eq]
      exact ⟨⟨trivial, Nat.le_add_right ..⟩, by omega⟩
    rw [admits, launchWord_memMap, if_neg hf, List.any_cons, Bool.or_eq_true]
    exact .inl hregion

theorem wordAt_launchWord {s : State} (hm : s.mem.wf = true) (w : InstrWord) :
    wordAt (launchWord s w) (launchWord s w).pc = w :=
  wordAt_of_mem_eq_placeWord hm (launchWord_mem s w)

end Launch

theorem decode_tableWord_of_eq_some {n w : Nat} {i : Instr} (h : decodeTableWord n w = some i) :
    decode (tableWord n w) = .ok i := by
  simp only [decodeTableWord, decodeBytes, wordOfBytes_byteOfWord] at h
  cases hd : decode (tableWord n w) with
  | error e => simp [hd] at h
  | ok j => simpa [hd] using h

/-- Settles O36: the launched state passes every check of the fetch, and the word at its `pc` is the one placed. -/
theorem launchedWordRuns : Obligations.LaunchedWordRuns := by
  intro s w i hm hd
  have hd' := decode_tableWord_of_eq_some hd
  rw [← wordAt_launchWord hm (tableWord 32 w)] at hd'
  exact step_eq_exec (launchWord_pc_ne_endPc s _) (launchWord_pc_aligned s _) (launchWord_fetchAdmitted s _) hd'

end Sys2Proof.Machine

/-! PROOFS. Family other, the run: the invariant, the launch premises, and the end of a run (spec/70_reset_and_hazards.md
R83, R85). -/

namespace Sys2Proof.Machine

/-! ### The invariant (R83 premise 1) -/

/-- Short of `end_pc` a whole word fits. -/
theorem PcPremise.pc_add_four_le {s : State} (h : PcPremise s) (hne : s.pc ≠ s.endPc) :
    s.pc.toNat + 4 ≤ s.endPc.toNat := by
  obtain ⟨hpc, hend, hle⟩ := h
  have hne' : s.pc.toNat ≠ s.endPc.toNat := fun e => hne (BitVec.eq_of_toNat_eq e)
  omega

theorem PcPremise.of_step {s t : State} (h : PcPremise s) (hst : step s = .next t) : PcPremise t := by
  obtain ⟨hpc, -, -, hend, -⟩ := step_frame hst
  have hroom := h.pc_add_four_le (of_step_eq_next hst).1
  obtain ⟨h4, hend4, -⟩ := h
  refine ⟨?_, hend ▸ hend4, ?_⟩
  · rw [hpc]
    omega
  · rw [hpc, hend]
    exact hroom

/-- Settles O37: the step keeps premise 1, and writes no memory. -/
theorem stepKeepsInvariant : Obligations.StepKeepsInvariant := by
  rintro s t ⟨hpremise, hwf⟩ hst
  obtain ⟨-, hmem, -⟩ := step_frame hst
  exact ⟨hpremise.of_step hst, hmem ▸ hwf⟩

/-- Settles O38: both addresses are multiples of 4 in order, and the empty memory is canonical. -/
theorem resetMeetsInvariant : Obligations.ResetMeetsInvariant :=
  ⟨⟨by decide, by decide, by decide⟩, reset_mem_wf⟩

/-! ### The launch premises (R83) -/

theorem LaunchPremises.of_step {s t : State} (h : LaunchPremises s) (hst : step s = .next t) : LaunchPremises t := by
  obtain ⟨hpremise, hfetch, hprogram⟩ := h
  obtain ⟨hpc, hmem, hmap, hend, -⟩ := step_frame hst
  have hlow {a : Addr} (hle : t.pc.toNat ≤ a.toNat) : s.pc.toNat ≤ a.toNat := by omega
  refine ⟨hpremise.of_step hst, fun a hle hlt => ?_, fun a h4 hle hlt => ?_⟩
  · rw [admits_congr hmap]
    exact hfetch a (hlow hle) (hend ▸ hlt)
  · rw [wordAt_congr hmem]
    exact hprogram a h4 (hlow hle) (hend ▸ hlt)

/-- Under premises 1 to 3, short of `end_pc` the step runs a well-formed instruction. -/
theorem LaunchPremises.runs_wellFormed {s : State} (h : LaunchPremises s) (hne : s.pc ≠ s.endPc) :
    ∃ i, decode (wordAt s s.pc) = .ok i ∧ i.wellFormed = true ∧ step s = exec i s := by
  obtain ⟨hpremise, hfetch, hprogram⟩ := h
  have hroom := hpremise.pc_add_four_le hne
  have hf : fetchAdmitted s = true := (fetchAdmitted_eq_true_iff s).2 fun k => by
    have hk := toNat_add_of_aligned hpremise.1 k.isLt
    exact hfetch _ (by omega) (by omega)
  obtain ⟨i, hd, hform⟩ := hprogram s.pc hpremise.1 le_rfl (by omega)
  exact ⟨i, hd, hform, step_eq_exec hne hpremise.1 hf hd⟩

/-- Under premises 1 to 3, short of `end_pc` the step completes where its address is admitted, and else is refused for
that alone. -/
theorem LaunchPremises.next_or_dataNotAdmitted {s : State} (h : LaunchPremises s) (hne : s.pc ≠ s.endPc) :
    ∃ i, decode (wordAt s s.pc) = .ok i ∧
      ((admits s .data (instrEa s i) = true ∧ ∃ t, step s = .next t) ∨
        (admits s .data (instrEa s i) = false ∧ step s = .refused .dataNotAdmitted)) := by
  obtain ⟨i, hd, hform, hst⟩ := h.runs_wellFormed hne
  have hroom := h.1.pc_add_four_le hne
  have hend := s.endPc.isLt
  refine ⟨i, hd, ?_⟩
  rw [hst]
  cases hadmits : admits s .data (instrEa s i) with
  | true => exact .inl ⟨rfl, _, exec_of_executable ⟨hform, hadmits, by omega⟩⟩
  | false => exact .inr ⟨rfl, exec_of_not_admits ((wellFormed_eq_true_iff i).1 hform) hadmits⟩

/-- Settles O43: the premises speak of what a step keeps, and leave the data address to be refused. -/
theorem launchPremisesKept : Obligations.LaunchPremisesKept := by
  refine fun s h => ⟨fun t => h.of_step, ?_⟩
  by_cases hne : s.pc = s.endPc
  · exact .inl (step_of_complete hne)
  · obtain ⟨i, -, ⟨-, hnext⟩ | ⟨-, hrefused⟩⟩ := h.next_or_dataNotAdmitted hne
    · exact .inr (.inl hnext)
    · exact .inr (.inr hrefused)

/-! ### Runs -/

/-- What every step keeps, every run keeps. -/
theorem runSteps_keeps {P : State → Prop} (hkeep : ∀ s t, P s → step s = .next t → P t) {n : Nat} {s t : State}
    (hs : P s) (h : runSteps n s = .next t) : P t :=
  runSteps_induct (P := fun _ s t => P s → P t) (fun _ => id) (fun _ s u _ hst ih hP => ih (hkeep s u hP hst))
    n s t h hs

/-- What a run leaves unchanged, and `pc` as a number. -/
theorem runSteps_frame : ∀ n s t, runSteps n s = .next t →
    t.pc.toNat = s.pc.toNat + 4 * n ∧ t.mem = s.mem ∧ t.memMap = s.memMap ∧ t.endPc = s.endPc ∧ t.named = s.named := by
  refine runSteps_induct (fun s => ⟨rfl, rfl, rfl, rfl, rfl⟩) fun n s u t hst ih => ?_
  obtain ⟨hpc, hmem, hmap, hend, hnamed⟩ := step_frame hst
  obtain ⟨hpc', hmem', hmap', hend', hnamed'⟩ := ih
  exact ⟨by omega, hmem'.trans hmem, hmap'.trans hmap, hend'.trans hend, hnamed'.trans hnamed⟩

/-- A run that stops reached, in fewer steps, a state whose step stops so. -/
theorem exists_of_runSteps_stop {n : Nat} {s : State} {o : Host.Outcome State Fault Refusal}
    (h : runSteps n s = o) (ho : ∀ t, o ≠ .next t) : ∃ m < n, ∃ t, runSteps m s = .next t ∧ step t = o := by
  induction n generalizing s with
  | zero => exact absurd h.symm (ho s)
  | succ n ih =>
    cases hst : step s with
    | next u =>
      rw [runSteps_succ_of_next hst] at h
      obtain ⟨m, hm, t, hrun, ht⟩ := ih h
      exact ⟨m + 1, by omega, t, by rw [runSteps_succ_of_next hst, hrun], ht⟩
    | fault f => exact ⟨0, by omega, s, runSteps_zero s, by rw [hst, ← h, runSteps_succ_of_fault hst]⟩
    | refused r => exact ⟨0, by omega, s, runSteps_zero s, by rw [hst, ← h, runSteps_succ_of_refused hst]⟩

/-- Premise 1 excludes both refusals that concern `pc`. -/
theorem PcPremise.refusal_ne {s : State} {r : Refusal} (h : PcPremise s) (hst : step s = .refused r) :
    r ≠ .pcMisaligned ∧ r ≠ .pcOverflow := by
  obtain ⟨hne, hf | rfl | ⟨i, he⟩⟩ := step_refused_cases hst
  · rcases fetch_error_cases hf with ⟨-, h4⟩ | rfl
    · exact absurd h.1 h4
    · exact ⟨nofun, nofun⟩
  · exact ⟨nofun, nofun⟩
  · rcases exec_refused_cases he with rfl | rfl | ⟨-, htop⟩
    · exact ⟨nofun, nofun⟩
    · exact ⟨nofun, nofun⟩
    · have hroom := h.pc_add_four_le hne
      have hend := s.endPc.isLt
      omega

/-- Settles O39: every state of the run meets premise 1, which excludes the two refusals. -/
theorem pcRefusalsUnreachable : Obligations.PcRefusalsUnreachable := by
  refine ⟨fun s hne h4 => step_of_fetch_error hne (fetch_of_misaligned h4), fun n s t h hrun => ?_⟩
  have ht : PcPremise t := runSteps_keeps (fun _ _ => PcPremise.of_step) h hrun
  exact ⟨fun hst => (ht.refusal_ne hst).1 rfl, fun hst => (ht.refusal_ne hst).2 rfl⟩

/-- Settles O40: the frame of a run. -/
theorem memoryConstantDuringRun : Obligations.MemoryConstantDuringRun := by
  intro n s t h
  obtain ⟨-, hmem, hmap, hend, hnamed⟩ := runSteps_frame n s t h
  exact ⟨readByte_congr hmem, hmem, hmap, hend, hnamed⟩

/-- The decoded instruction is the one a step with a next state ran. -/
theorem exec_of_step_eq_next {s t : State} {i : Instr} (hd : decode (wordAt s s.pc) = .ok i)
    (h : step s = .next t) : exec i s = .next t := by
  obtain ⟨-, -, j, hd', he⟩ := of_step_eq_next h
  cases hd'.symm.trans hd
  exact he

@[simp] theorem low32_zextByte (b : Byte) : low32 (zextByte b) = b.setWidth 32 :=
  BitVec.setWidth_setWidth_of_le b (by decide)

/-- Settles O41: the second address is the first loaded byte, and memory is that of `s`. -/
theorem loadUsesJustLoadedValue : Obligations.LoadUsesJustLoadedValue := by
  intro s t u i rt hd hst hd' hst'
  have he := exec_of_step_eq_next hd hst
  have hea : instrEa t (.lbzx rt 0 i.rt) = (readByte s (instrEa s i)).setWidth 32 := by
    rw [instrEa_lbzx, base0_zero, zero_add, readGpr_rt_of_exec_eq_next he]
    exact low32_zextByte _
  have hrt := readGpr_rt_of_exec_eq_next (exec_of_step_eq_next hd' hst')
  rwa [hea, readByte_congr (exec_mem he)] at hrt

/-! ### The end of a run (R85) -/

theorem PcPremise.pc_add_stepsLeft {s : State} (h : PcPremise s) :
    s.pc.toNat + 4 * stepsLeft s = s.endPc.toNat := by
  obtain ⟨hpc, hend, hle⟩ := h
  rw [stepsLeft]
  omega

/-- Along a run from a state that meets premise 1 the run is complete exactly when no steps are left. -/
theorem PcPremise.complete_iff {n : Nat} {s t : State} (h : PcPremise s) (hrun : runSteps n s = .next t) :
    t.pc = t.endPc ↔ n = stepsLeft s := by
  obtain ⟨hpc, -, -, hend, -⟩ := runSteps_frame n s t hrun
  have hleft := h.pc_add_stepsLeft
  rw [hend, ← BitVec.toNat_inj]
  omega

theorem PcPremise.le_stepsLeft {n : Nat} {s t : State} (h : PcPremise s) (hrun : runSteps n s = .next t) :
    n ≤ stepsLeft s := by
  obtain ⟨-, -, hle⟩ : PcPremise t := runSteps_keeps (fun _ _ => PcPremise.of_step) h hrun
  obtain ⟨hpc, -, -, hend, -⟩ := runSteps_frame n s t hrun
  have hleft := h.pc_add_stepsLeft
  rw [hend] at hle
  omega

/-- A run that stops before its end stops with the refusal of a state it reached short of `end_pc`. -/
theorem PcPremise.next_or_refused {s : State} (h : PcPremise s) :
    (∃ t, runSteps (stepsLeft s) s = .next t) ∨
    ∃ r, runSteps (stepsLeft s) s = .refused r ∧
      ∃ m t, runSteps m s = .next t ∧ t.pc ≠ t.endPc ∧ step t = .refused r := by
  cases hrun : runSteps (stepsLeft s) s with
  | next t => exact .inl ⟨t, rfl⟩
  | fault f =>
    obtain ⟨m, hm, t, ht, hst⟩ := exists_of_runSteps_stop hrun nofun
    have hend := (h.complete_iff ht).1 (eq_of_step_eq_fault hst).2
    omega
  | refused r =>
    obtain ⟨m, -, t, ht, hst⟩ := exists_of_runSteps_stop hrun nofun
    exact .inr ⟨r, rfl, m, t, ht, (step_refused_cases hst).1, hst⟩

/-- Settles O42: `pc` counts the steps, and no step faults before `end_pc`. -/
theorem runEndsAtEndPc : Obligations.RunEndsAtEndPc := by
  refine fun s h => ⟨?_, fun n t hrun => (runSteps_frame n s t hrun).1, fun n t hlt hrun => ?_⟩
  · rcases h.next_or_refused with ⟨t, hrun⟩ | ⟨r, hrun, -⟩
    · obtain ⟨-, -, -, hend, -⟩ := runSteps_frame _ s t hrun
      exact .inl ⟨t, hrun, (h.complete_iff hrun).2 rfl, hend⟩
    · exact .inr ⟨r, hrun⟩
  · exact absurd (h.le_stepsLeft hrun) (by omega)

/-- Settles O44: premises 1 to 3 leave `dataNotAdmitted` as the refusal of a step of the run, which premise 4
excludes. -/
theorem launchedRunCompletes : Obligations.LaunchedRunCompletes := by
  intro s h hdata
  rcases h.1.next_or_refused with ⟨t, hrun⟩ | ⟨r, -, m, t, ht, hne, hst⟩
  · obtain ⟨-, hmem, -, hend, -⟩ := runSteps_frame _ s t hrun
    exact ⟨t, hrun, ((h.1.complete_iff hrun).2 rfl).trans hend, hmem⟩
  · have hlaunch : LaunchPremises t := runSteps_keeps (fun _ _ => LaunchPremises.of_step) h ht
    obtain ⟨i, hd, ⟨-, u, hnext⟩ | ⟨hno, -⟩⟩ := hlaunch.next_or_dataNotAdmitted hne
    · cases hnext.symm.trans hst
    · exact absurd (hdata m t i ht hne hd) (Bool.eq_false_iff.1 hno)

end Sys2Proof.Machine

/-! PROOFS. Family other, the reference: the step in natural-number arithmetic (spec/70_reset_and_hazards.md R86). -/

namespace Sys2Proof.Machine

/-! ### The fields by division, and the row they select -/

section NatFields

variable (w : InstrWord)

theorem natSlice_rt : natSlice w.toNat 25 21 = (rtField w).val := (rtField_val w).symm

theorem natSlice_ra : natSlice w.toNat 20 16 = (raField w).val := (raField_val w).symm

theorem natSlice_rb : natSlice w.toNat 15 11 = (rbField w).val := (rbField_val w).symm

theorem natSlice_opcd : natSlice w.toNat 31 26 = w.toNat / 2 ^ 26 := by
  have hw := w.isLt
  rw [natSlice]
  omega

theorem natSlice_xoRc : natSlice w.toNat 10 0 = w.toNat % 2 ^ 11 := by
  rw [natSlice, pow_zero, Nat.div_one]

theorem natSlice_d : natSlice w.toNat 15 0 = (dField w).toNat := by
  rw [natSlice, pow_zero, Nat.div_one, dField_toNat]

/-- The decoder is the row found by division, with the fields of the word as operands. -/
theorem decode_eq_natDecode :
    decode w = match natDecode w.toNat with
      | none => .error .unknownEncoding
      | some m => .ok (instrOfFields w m) := by
  simp only [decode, natDecode, natSlice_opcd, natSlice_xoRc, opcdField_eq_34, opcdField_eq_35, opcdField_eq_31,
    xoRc_eq_87, xoRc_eq_119]
  split
  · rfl
  · split
    · rfl
    · split
      · rfl
      · split <;> rfl

end NatFields

/-! ### The instruction a row makes of a word, in numbers -/

section Reference

variable (s : State) (m : Mnemonic) (w : InstrWord)

theorem instrOfFields_rt : (instrOfFields w m).rt = rtField w := by
  cases m <;> rfl

theorem updateReg_instrOfFields :
    updateReg (instrOfFields w m) = if isUpdate m = true then some (raField w) else none := by
  cases m <;> rfl

theorem invalidForm_instrOfFields_iff :
    (instrOfFields w m).invalidForm = true ↔
      isUpdate m = true ∧ (natSlice w.toNat 20 16 = 0 ∨ natSlice w.toNat 20 16 = natSlice w.toNat 25 21) := by
  have hform : (instrOfFields w m).invalidForm = (isUpdate m && invalidUpdate (rtField w) (raField w)) := by
    cases m <;> rfl
  rw [hform, Bool.and_eq_true, invalidUpdate_eq_true_iff, natSlice_ra, natSlice_rt, Fin.val_eq_zero_iff, Fin.val_inj]

theorem natGpr_val (r : Reg) : natGpr s r.val = (readGpr s r).toNat := by
  simp [natGpr, readGpr]

/-- The base of R57 as a number. -/
theorem natBase_eq : natBase s m w.toNat = (instrBase s (instrOfFields w m)).toNat := by
  have hbase : instrBase s (instrOfFields w m) =
      if isUpdate m = false ∧ raField w = 0 then 0 else readGpr s (raField w) := by
    cases m <;> simp [instrOfFields, instrBase, isUpdate, base0]
  simp only [natBase, hbase, natSlice_ra, natGpr_val, Fin.val_eq_zero_iff]
  split <;> rfl

/-- The offset as a number. -/
theorem natOffset_eq : natOffset s m w.toNat = (instrOffset s (instrOfFields w m)).toNat := by
  have hindex : natGpr s (natSlice w.toNat 15 11) = (readGpr s (rbField w)).toNat := by
    rw [natSlice_rb, natGpr_val]
  have hdisp := (sext64_toNat (dField w)).symm
  rw [← natSlice_d] at hdisp
  cases m with
  | lbz => exact hdisp
  | lbzu => exact hdisp
  | lbzx => exact hindex
  | lbzux => exact hindex

theorem natEa_eq : natEa s m w.toNat = (instrEa s (instrOfFields w m)).toNat := by
  rw [natEa, natBase_eq, natOffset_eq, instrEa_eq_effectiveAddress, effectiveAddress_toNat]

theorem setIfInBounds_val (g : Vector Word 32) (r : Reg) (v : Word) :
    g.setIfInBounds r.val v = g.set r.val v :=
  Vector.ext fun k hk => by rw [Vector.getElem_setIfInBounds hk, Vector.getElem_set]

theorem ofNat_toNat_add (a : Addr) (n : Nat) : BitVec.ofNat 32 (a.toNat + n) = a + BitVec.ofNat 32 n := by
  rw [BitVec.ofNat_add, BitVec.ofNat_toNat, BitVec.setWidth_eq]

/-- The state after the load, its values as numbers. -/
theorem natNext_eq :
    natNext s m w.toNat = loadWrites (rtField w) (instrEa s (instrOfFields w m))
      (updateReg (instrOfFields w m)) s := by
  simp only [natNext, natSlice_rt, natSlice_ra, natEa_eq, setIfInBounds_val, ofNat_toNat_add, natByte,
    BitVec.ofNat_toNat, updateReg_instrOfFields]
  cases isUpdate m <;> rfl

/-- The reference decides and acts as `exec` of the instruction its row makes of the word. -/
theorem refExecute_of_natDecode {m : Mnemonic} (h : natDecode w.toNat = some m) :
    refExecute s w.toNat = exec (instrOfFields w m) s := by
  simp only [refExecute, h, ← invalidForm_instrOfFields_iff, natEa_eq, BitVec.ofNat_toNat, BitVec.setWidth_eq,
    ← pcOverflows_eq_true_iff, natNext_eq, exec_eq_loadByteZero, loadByteZero, instrOfFields_rt]

theorem refExecute_of_natDecode_none (h : natDecode w.toNat = none) :
    refExecute s w.toNat = .refused .unknownEncoding := by
  rw [refExecute, h]

end Reference

/-- Settles O34: check by check, the rule of the step and the line of the reference give one answer. -/
theorem stepRefinesReference : Obligations.StepRefinesReference := by
  intro s
  simp only [refStep, ofNat_toNat_add, ← fetchAdmitted_eq_false_iff]
  by_cases hpc : s.pc = s.endPc
  · rw [if_pos hpc, step_of_complete hpc]
  by_cases h4 : s.pc.toNat % 4 = 0
  · rw [if_neg hpc, if_neg (not_not.2 h4), ← wordAt_toNat h4]
    cases hf : fetchAdmitted s with
    | false => rw [if_pos rfl, step_of_fetch_error hpc (fetch_of_not_admitted h4 hf)]
    | true =>
      have hfetch := (fetch_eq_ok_iff s _).2 ⟨h4, hf, rfl⟩
      have hd := decode_eq_natDecode (wordAt s s.pc)
      rw [if_neg nofun]
      cases hm : natDecode (wordAt s s.pc).toNat with
      | none =>
        rw [hm] at hd
        rw [step_of_decode_error hpc hfetch hd, refExecute_of_natDecode_none s _ hm]
      | some m =>
        rw [hm] at hd
        rw [step_of_decode_ok hpc hfetch hd, refExecute_of_natDecode s _ hm]
  · rw [if_neg hpc, if_pos h4, step_of_fetch_error hpc (fetch_of_misaligned h4)]

end Sys2Proof.Machine
